-- ==== Sys2Proof/Word.lean ====
section
/-! DEFINITION. The word types of the block: bytes, the 4-bit operand fields, the request and response words. -/

namespace Sys2Proof

/-- An 8-bit register, a payload byte, or the operand `v` (R12, R60). -/
abbrev Byte := BitVec 8

/-- A 4-bit field: the operands `a` and `b`, an operation code, the command and channel nibbles (R51, R60). -/
abbrev Nibble := BitVec 4

/-- The request word `REQ[19:0]` (R60). -/
abbrev RequestWord := BitVec 20

/-- The response word `RSP[11:0]` (R65). -/
abbrev ResponseWord := BitVec 12

end Sys2Proof
end

