-- ==== Sys2Proof/Config.lean ====
section
/-! DEFINITION. The configuration a block is built with (R5): the eight parameters, and the reference configuration CFG_DOC. -/

namespace Sys2Proof

/-- The five named commands of the profile (R55, glossary "Command"). -/
inductive Command where
  | query
  | stop
  | goTo
  | reply
  | setParameters
deriving DecidableEq, Repr

/-- The five commands in one list. -/
def Command.all : List Command := [.query, .stop, .goTo, .reply, .setParameters]

/-- The configuration record of R5, fixed for the life of a block (R20). -/
structure Cfg where
  /-- `BF_W`, the width of the bit container in bits; R6 fixes it at 8. -/
  bfW : Nat
  /-- `CMD_STOP`. -/
  cmdStop : Byte
  /-- `CMD_GOTO`. -/
  cmdGoTo : Byte
  /-- `CMD_SETPARAMS`. -/
  cmdSetParams : Byte
  /-- `CMD_QUERY`, a parameter the source leaves open (U15). -/
  cmdQuery : Byte
  /-- `CMD_REPLY`, a parameter the source leaves open (U15). -/
  cmdReply : Byte
  /-- `ENV_VLD`, an open parameter (U16). -/
  envVld : Byte
  /-- `PMAX`, the capacity of the payload buffer in bytes, an open parameter (U17). -/
  pmax : Nat
deriving DecidableEq, Repr

/-- The reference configuration CFG_DOC of R5. -/
def Cfg.doc : Cfg where
  bfW := 8
  cmdStop := 1
  cmdGoTo := 2
  cmdSetParams := 5
  cmdQuery := 3
  cmdReply := 4
  envVld := 0xD2
  pmax := 14

/-- The code a configuration gives a command (R55). -/
def Cfg.code (cfg : Cfg) : Command → Byte
  | .query => cfg.cmdQuery
  | .stop => cfg.cmdStop
  | .goTo => cfg.cmdGoTo
  | .reply => cfg.cmdReply
  | .setParameters => cfg.cmdSetParams

end Sys2Proof
end

