-- ==== Sys2Proof/Syntax.lean ====
section
/-! DEFINITION. The instructions: one constructor per row of the opcode table (sixteen request codes and five payload
commands), the two code spaces they are written in, and the host's pseudo-instructions. -/

namespace Sys2Proof

/-- Every row of the opcode table. The first sixteen are selected by `op` of a request word (R61), the last five by the
low nibble of the payload byte DB0 (R55), whose high nibble is the channel `ch` (R51). Unused request fields are no
operands (R62). -/
inductive Instr where
  /-- RESERVED_0, `op` 0x0 (R64). -/
  | reserved0
  /-- BFZ (R82). -/
  | bfz
  /-- BFLD `v` (R83). -/
  | bfld (v : Byte)
  /-- BFINS offset, width, value (R84). -/
  | bfins (a b : Nibble) (v : Byte)
  /-- BFEXT offset, width (R85). -/
  | bfext (a b : Nibble)
  /-- BFRAW (R86). -/
  | bfraw
  /-- MNEW command code (R101). -/
  | mnew (v : Byte)
  /-- HRD register index (R102). -/
  | hrd (a : Nibble)
  /-- HWR register index, value (R103). -/
  | hwr (a : Nibble) (v : Byte)
  /-- GETDB DB index (R104). -/
  | getdb (a : Nibble)
  /-- SETDB DB index, value (R105). -/
  | setdb (a : Nibble) (v : Byte)
  /-- ENC (R124). -/
  | enc
  /-- DEC (R145). -/
  | dec
  /-- DECA (R146). -/
  | deca
  /-- RESERVED_E, `op` 0xE (R64). -/
  | reservedE
  /-- RESERVED_F, `op` 0xF (R64). -/
  | reservedF
  /-- The payload command QueryPositionAndAngle on channel `ch` (R55, format F1). -/
  | queryPositionAndAngle (ch : Nibble)
  /-- The payload command Stop on channel `ch` (R55, format F1). -/
  | stop (ch : Nibble)
  /-- The payload command GoToPositionAndAngle on channel `ch` (R55, format F4). -/
  | goToPositionAndAngle (ch : Nibble)
  /-- The payload command ReplyPositionAndAngle on channel `ch` (R55, format F4). -/
  | replyPositionAndAngle (ch : Nibble)
  /-- The payload command SetParameters on channel `ch` (R55, R59: no layout). -/
  | setParameters (ch : Nibble)
deriving DecidableEq, Repr

/-- What an instruction is written in: a request word (R60), or the payload byte DB0 (R51). -/
inductive Code where
  | request (w : RequestWord)
  | payload (db0 : Byte)
deriving DecidableEq, Repr

/-- The registers of the register map (R22), by the names a host script may use (R68). -/
inductive RegName where
  | mCmd
  | mPos
  | mAng
  | mLock
  | mRepos
  | tEtype
  | tLen
deriving DecidableEq, Repr

/-- The pseudo-instructions of R69. -/
inductive Pseudo where
  /-- `MSET r, v`. -/
  | mset (r : RegName) (v : Byte)
  /-- `MGET r`. -/
  | mget (r : RegName)
  /-- `SETLEN n`. -/
  | setlen (n : Byte)
  /-- `TLOAD t, [b0, ..., b(k-1)]`, the bytes in wire order. -/
  | tload (t : Byte) (bytes : List Byte)
  /-- `BFGET o, w`. -/
  | bfget (o w : Nibble)
deriving DecidableEq, Repr

end Sys2Proof
end

