-- ==== Sys2Proof/WellFormed.lean ====
section
/-! DEFINITION. Well-formedness: of a configuration (R6), of an instruction under a configuration, of a
pseudo-instruction (R69). The operands of a request are bit vectors of the width of their field, so every request is
well-formed; a payload command is written with a code of the configuration and needs that code to be a nibble that no
other command has. -/

namespace Sys2Proof

/-- The five command codes in one list (R5). -/
def Cfg.codes (cfg : Cfg) : List Byte :=
  [cfg.cmdQuery, cfg.cmdStop, cfg.cmdGoTo, cfg.cmdReply, cfg.cmdSetParams]

/-- Whether no byte stands twice in a list ("pairwise distinct", R6). -/
def allDistinct : List Byte → Bool
  | [] => true
  | c :: rest => !rest.contains c && allDistinct rest

/-- R6: the five codes pairwise distinct, each in 0..15, `BF_W = 8`, `5 ≤ PMAX ≤ 16`. -/
def Cfg.wf (cfg : Cfg) : Bool :=
  allDistinct cfg.codes && cfg.codes.all (fun c => decide (c.toNat < 16)) && decide (cfg.bfW = 8)
    && decide (5 ≤ cfg.pmax) && decide (cfg.pmax ≤ 16)

/-- The payload command an instruction is, if it is one. -/
def Instr.command : Instr → Option Command
  | .queryPositionAndAngle _ => some .query
  | .stop _ => some .stop
  | .goToPositionAndAngle _ => some .goTo
  | .replyPositionAndAngle _ => some .reply
  | .setParameters _ => some .setParameters
  | .reserved0 | .bfz | .bfld _ | .bfins _ _ _ | .bfext _ _ | .bfraw | .mnew _ | .hrd _ | .hwr _ _ | .getdb _
  | .setdb _ _ | .enc | .dec | .deca | .reservedE | .reservedF => none

/-- An instruction is well-formed under a configuration: a request always; a payload command when its code is a nibble
(R55) and selects that command alone (R6). -/
def Instr.wf (cfg : Cfg) (i : Instr) : Bool :=
  match i.command with
  | none => true
  | some c =>
    decide ((cfg.code c).toNat < 16) && Command.all.all (fun d => decide (d = c) || decide (cfg.code d ≠ cfg.code c))

/-- A pseudo-instruction is well-formed under a configuration: `MSET` with one of the five message registers, `TLOAD`
with at most `PMAX` bytes (R69). DESIGN CHOICE, safe: R69 does not say which registers `MGET` takes, and here it takes
all seven of the map (log entry 12). -/
def Pseudo.wf (cfg : Cfg) : Pseudo → Bool
  | .mset r _ => match r with
    | .mCmd | .mPos | .mAng | .mLock | .mRepos => true
    | .tEtype | .tLen => false
  | .mget _ => true
  | .setlen _ => true
  | .tload _ bytes => decide (bytes.length ≤ cfg.pmax)
  | .bfget _ _ => true

end Sys2Proof
end

