-- ==== Sys2Proof/Decode.lean ====
section
/-! DEFINITION. The decoder, total on every request word and every payload byte, rejecting by name; the encoder; the
register map's indices (R22); the expansion of the pseudo-instructions (R69). -/

namespace Sys2Proof

/-- Why a code is no instruction. -/
inductive DecodeError where
  /-- A payload byte whose command nibble is none of the five configured codes (R55: "every other value of the nibble is
  an unknown command"). -/
  | unknownCommand (nibble : Nibble)
  /-- A number that is no code of the table: a request has 20 bits (R60), a payload byte 8. -/
  | noSuchCode (nbits w : Nat)
deriving DecidableEq, Repr

/-! The fields of a request word (R60) and of DB0 (R51). -/

/-- `REQ[19:16]`. -/
def reqOp (w : RequestWord) : Nibble := w.extractLsb' 16 4

/-- `REQ[15:12]`. -/
def reqA (w : RequestWord) : Nibble := w.extractLsb' 12 4

/-- `REQ[11:8]`. -/
def reqB (w : RequestWord) : Nibble := w.extractLsb' 8 4

/-- `REQ[7:0]`. -/
def reqV (w : RequestWord) : Byte := w.extractLsb' 0 8

/-- The request word with the four given fields (R60). -/
def requestWord (op a b : Nibble) (v : Byte) : RequestWord := op ++ a ++ b ++ v

/-- `DB0[3:0]`, the command nibble (R51). -/
def commandNibble (db0 : Byte) : Nibble := db0.extractLsb' 0 4

/-- `DB0[7:4]`, the channel nibble (R51). -/
def channelNibble (db0 : Byte) : Nibble := db0.extractLsb' 4 4

/-- The byte DB0 of a channel and a command nibble (R51). -/
def db0Byte (ch cmd : Nibble) : Byte := ch ++ cmd

/-- The command a code selects (R55): one of the five, or an unknown command. Under a well-formed configuration the
order of the tests cannot be seen (R6). -/
def classify (cfg : Cfg) (code : Byte) : Option Command :=
  if code = cfg.cmdQuery then some .query
  else if code = cfg.cmdStop then some .stop
  else if code = cfg.cmdGoTo then some .goTo
  else if code = cfg.cmdReply then some .reply
  else if code = cfg.cmdSetParams then some .setParameters
  else none

/-- The instruction a payload command on a channel is. -/
def payloadInstr (ch : Nibble) : Command → Instr
  | .query => .queryPositionAndAngle ch
  | .stop => .stop ch
  | .goTo => .goToPositionAndAngle ch
  | .reply => .replyPositionAndAngle ch
  | .setParameters => .setParameters ch

/-- Decoding a request word: every word has an instruction, selected by `op` alone, its operands taken as they stand
(R61, R62, R63, R64). -/
def decodeRequest (w : RequestWord) : Instr :=
  match (reqOp w).toNat with
  | 0x1 => .bfz
  | 0x2 => .bfld (reqV w)
  | 0x3 => .bfins (reqA w) (reqB w) (reqV w)
  | 0x4 => .bfext (reqA w) (reqB w)
  | 0x5 => .bfraw
  | 0x6 => .mnew (reqV w)
  | 0x7 => .hrd (reqA w)
  | 0x8 => .hwr (reqA w) (reqV w)
  | 0x9 => .getdb (reqA w)
  | 0xA => .setdb (reqA w) (reqV w)
  | 0xB => .enc
  | 0xC => .dec
  | 0xD => .deca
  | 0xE => .reservedE
  | 0xF => .reservedF
  | _ => .reserved0

/-- Decoding the payload byte DB0 as a payload command (R51, R55). -/
def decodePayload (cfg : Cfg) (db0 : Byte) : Except DecodeError Instr :=
  match classify cfg ((commandNibble db0).setWidth 8) with
  | some c => .ok (payloadInstr (channelNibble db0) c)
  | none => .error (.unknownCommand (commandNibble db0))

/-- Decoding of both code spaces. -/
def decode (cfg : Cfg) : Code → Except DecodeError Instr
  | .request w => .ok (decodeRequest w)
  | .payload db0 => decodePayload cfg db0

/-- The byte DB0 of a payload command (R51, R55). -/
def encodePayload (cfg : Cfg) (c : Command) (ch : Nibble) : Byte := db0Byte ch ((cfg.code c).setWidth 4)

/-- The code an instruction is written in; an assembler writes unused fields as 0 (R61, R62). -/
def encode (cfg : Cfg) : Instr → Code
  | .reserved0 => .request (requestWord 0x0 0 0 0)
  | .bfz => .request (requestWord 0x1 0 0 0)
  | .bfld v => .request (requestWord 0x2 0 0 v)
  | .bfins a b v => .request (requestWord 0x3 a b v)
  | .bfext a b => .request (requestWord 0x4 a b 0)
  | .bfraw => .request (requestWord 0x5 0 0 0)
  | .mnew v => .request (requestWord 0x6 0 0 v)
  | .hrd a => .request (requestWord 0x7 a 0 0)
  | .hwr a v => .request (requestWord 0x8 a 0 v)
  | .getdb a => .request (requestWord 0x9 a 0 0)
  | .setdb a v => .request (requestWord 0xA a 0 v)
  | .enc => .request (requestWord 0xB 0 0 0)
  | .dec => .request (requestWord 0xC 0 0 0)
  | .deca => .request (requestWord 0xD 0 0 0)
  | .reservedE => .request (requestWord 0xE 0 0 0)
  | .reservedF => .request (requestWord 0xF 0 0 0)
  | .queryPositionAndAngle ch => .payload (encodePayload cfg .query ch)
  | .stop ch => .payload (encodePayload cfg .stop ch)
  | .goToPositionAndAngle ch => .payload (encodePayload cfg .goTo ch)
  | .replyPositionAndAngle ch => .payload (encodePayload cfg .reply ch)
  | .setParameters ch => .payload (encodePayload cfg .setParameters ch)

/-- The code that the number `w` of `nbits` bits is, as the opcode table numbers them: a payload byte for the table's
8-bit rows, a request word for its 20-bit rows (24 in whole bytes). A number of more than 20 bits is no request word. -/
def codeOfNumber (nbits w : Nat) : Except DecodeError Code :=
  if nbits = 8 then
    if w < 2 ^ 8 then .ok (.payload (BitVec.ofNat 8 w)) else .error (.noSuchCode nbits w)
  else if nbits = 20 ∨ nbits = 24 then
    if w < 2 ^ 20 then .ok (.request (BitVec.ofNat 20 w)) else .error (.noSuchCode nbits w)
  else .error (.noSuchCode nbits w)

/-- The instruction the decoder reads from a number of the opcode table, payload bytes under CFG_DOC, the configuration
whose codes the table shows (R55). -/
def decodeTableWord (nbits w : Nat) : Option Instr :=
  match codeOfNumber nbits w with
  | .ok c => (decode .doc c).toOption
  | .error _ => none

/-! The register map (R22) and the host's pseudo-instructions (R68, R69). -/

/-- The index of a register in the map of R22. -/
def RegName.index : RegName → Nibble
  | .mCmd => 0
  | .mPos => 1
  | .mAng => 2
  | .mLock => 3
  | .mRepos => 4
  | .tEtype => 5
  | .tLen => 6

/-- The register at an index of the map of R22; none at 7 to 15. -/
def regAt (a : Nibble) : Option RegName :=
  match a.toNat with
  | 0 => some .mCmd
  | 1 => some .mPos
  | 2 => some .mAng
  | 3 => some .mLock
  | 4 => some .mRepos
  | 5 => some .tEtype
  | 6 => some .tLen
  | _ => none

/-- The SETDB requests of TLOAD: the byte at the head of `bytes`, of which `bytes.length` are left, goes to that DB index
(R69: `SETDB k-1-i, b(i)`). -/
def loadBytes : List Byte → List Instr
  | [] => []
  | b :: rest => .setdb (BitVec.ofNat 4 rest.length) b :: loadBytes rest

/-- The expansion of a pseudo-instruction (R69). -/
def Pseudo.expand : Pseudo → List Instr
  | .mset r v => [.hwr r.index v]
  | .mget r => [.hrd r.index]
  | .setlen n => [.hwr RegName.tLen.index n]
  | .tload t bytes =>
    .hwr RegName.tEtype.index t :: .hwr RegName.tLen.index (BitVec.ofNat 8 bytes.length) :: loadBytes bytes
  | .bfget o w => [.bfext o w]

end Sys2Proof
end

