-- ==== Sys2Proof/Machine/State.lean ====
section
/-! DEFINITION. The state of one block, as plain data; its inputs and its response; the reasons a step stops; reset. -/

namespace Sys2Proof.Machine

/-- The seven errors (R66, R160). They are outcomes of operations, reported in the response, never a stop (R174). -/
inductive ErrorCode where
  | envelopeMismatch
  | emptyPayload
  | payloadLengthMismatch
  | unknownCommand
  | notImplemented
  | fieldRangeError
  | badRequest
deriving DecidableEq, Repr

/-- The response of an operation (R65): no error is OK. -/
structure Response where
  err : Option ErrorCode
  warn : Bool
  data : Byte
deriving DecidableEq, Repr

/-- One move of the world outside the block. -/
inductive Input where
  /-- The host issues a request word (R193). -/
  | request (w : RequestWord)
  /-- The platform resets the idle block (R190); the two bytes are the draws of `M.CMD` and `T.ETYPE` (R21, U1, U2). -/
  | reset (cmd etype : Byte)
deriving DecidableEq, Repr

/-- A message: the five fields the registers `M.CMD`, `M.POS`, `M.ANG`, `M.LOCK`, `M.REPOS` hold (R12). -/
structure Message where
  cmd : Byte
  pos : Byte
  ang : Byte
  lock : Byte
  repos : Byte
deriving DecidableEq, Repr

/-- The payload buffer: the cells of the bytes that are not 0, by wire position, addresses strictly rising. A byte that
no cell lists is 0, its reset value (R21). -/
abbrev Memory := List Host.Cell

/-- The state of one block. The first nine fields are the whole architectural state (R10); the last three are the
model's own (R20): the configuration, the moves still to come, and the last response. -/
structure State where
  /-- `BF`, the bit container (R11). -/
  bf : Byte
  /-- `M.CMD` (R12). -/
  mCmd : Byte
  /-- `M.POS` (R12). -/
  mPos : Byte
  /-- `M.ANG` (R12). -/
  mAng : Byte
  /-- `M.LOCK` (R12, R14). -/
  mLock : Byte
  /-- `M.REPOS` (R12). -/
  mRepos : Byte
  /-- `T.ETYPE` (R15). -/
  tEtype : Byte
  /-- `T.LEN` (R16). -/
  tLen : Byte
  /-- `P` (R17). -/
  p : Memory
  /-- The configuration the block is built with; nothing changes it (R20). -/
  cfg : Cfg
  /-- The moves of host and platform still to come, in the order they are made (R193). -/
  inputs : List Input
  /-- The response of the last operation, none before the first; an output, which no operation reads (R20). -/
  response : Option Response
deriving DecidableEq, Repr

/-- Why a step stops with a fault. -/
inductive Fault where
  /-- Raised by the access to a payload byte at wire position `PMAX` or more, a byte that does not exist (R17, R27).
  Safe: no state with `T.LEN ≤ PMAX` (R16) reaches it, and the machine goes on nowhere. -/
  | noSuchByte (i : Nat)
deriving DecidableEq, Repr

/-- Why a step is refused. -/
inductive Refusal where
  /-- Raised by `exec` for an instruction without a meaning; no arm does. Safe. -/
  | notModelled (mnemonic : String)
  /-- Raised by `step` in a block whose configuration is not well-formed: "the block has no meaning under an ill-formed
  one (a model refuses it)" (R6, R174). Safe. -/
  | illFormedConfiguration
deriving DecidableEq, Repr

/-- The state after reset (R21, R190) of a block with configuration `cfg`, where the two unspecified registers drew `cmd`
and `etype`. -/
def State.resetWith (cfg : Cfg) (cmd etype : Byte) : State where
  bf := 0
  mCmd := cmd
  mPos := 127
  mAng := 127
  mLock := 0
  mRepos := 0
  tEtype := etype
  tLen := 0
  p := []
  cfg := cfg
  inputs := []
  response := none

/-- The state after reset of a block with the reference configuration. DESIGN CHOICE, unsafe: `M.CMD` and `T.ETYPE`,
unspecified after reset (U1, U2), hold 0 here (log entries 4 and 5); `State.resetWith` has every draw. -/
def State.reset : State := State.resetWith .doc 0 0

end Sys2Proof.Machine
end

