-- ==== Sys2Proof/Machine/Flags.lean ====
section
/-! DEFINITION. The block has no flag and no condition code (R19). What an operation reports instead is its response: this
file has its fields and its word (R65, R66) and the channel diagnostic (R144). -/

namespace Sys2Proof.Machine

/-- The 3-bit error code of R66; 0 is OK. -/
def errCode : Option ErrorCode → BitVec 3
  | none => 0
  | some .envelopeMismatch => 1
  | some .emptyPayload => 2
  | some .payloadLengthMismatch => 3
  | some .unknownCommand => 4
  | some .notImplemented => 5
  | some .fieldRangeError => 6
  | some .badRequest => 7

/-- The response word `RSP[11:0]`: `err[11:9] warn[8] data[7:0]` (R65). -/
def Response.word (r : Response) : ResponseWord := errCode r.err ++ BitVec.ofBool r.warn ++ r.data

/-- `(OK, 0, d)`: success with data `d`. -/
def okResponse (d : Byte) : Response := { err := none, warn := false, data := d }

/-- `(e, 0, 0)`: what `raise e` responds (R27). -/
def errorResponse (e : ErrorCode) : Response := { err := some e, warn := false, data := 0 }

/-- The warning bit of a diagnostic: 1 only for a channel that is not 0 (R65, R144). -/
def warnBit : Option Nibble → Bool
  | none => false
  | some ch => decide (ch ≠ 0)

/-- The data of a diagnostic: the channel, zero-extended; 0 when DB0 was not read (R144). -/
def diagnosticData : Option Nibble → Byte
  | none => 0
  | some ch => ch.setWidth 8

/-- The response of a decoder, whatever its outcome: the error or OK, with the diagnostic (R144, R145). -/
def diagnosed (err : Option ErrorCode) (diag : Option Nibble) : Response :=
  { err := err, warn := warnBit diag, data := diagnosticData diag }

end Sys2Proof.Machine
end

