-- ==== Sys2Proof/Machine/Ops.lean ====
section
/-! DEFINITION. The shared operations: the payload memory (R17, R31, R37), the message as a whole (R12), responding and
raising an error (R164), taking the next input (R193) and reset (R190). -/

namespace Sys2Proof.Machine

/-! Memory in its canonical form. -/

/-- Whether all addresses of `m` are above `lo` and strictly rising, and no cell holds 0. -/
def Memory.risingFrom (lo : Nat) : Memory → Bool
  | [] => true
  | (i, v) :: rest => decide (lo ≤ i) && decide (v ≠ 0) && Memory.risingFrom (i + 1) rest

/-- The canonical form: addresses strictly rising, no cell that equals what an unlisted byte reads as. -/
def Memory.wf (m : Memory) : Bool := Memory.risingFrom 0 m

/-- The byte at wire position `i`; an unlisted byte is 0 (R21). -/
def Memory.read (m : Memory) (i : Nat) : Byte :=
  match m with
  | [] => 0
  | (j, w) :: rest => if i = j then w else Memory.read rest i

/-- The cell of a byte, or nothing for a byte that is 0. -/
def Memory.cell (i : Nat) (v : Byte) : Memory := if v = 0 then [] else [(i, v)]

/-- Writing one byte; writing 0 takes its cell out. -/
def Memory.write (m : Memory) (i : Nat) (v : Byte) : Memory :=
  match m with
  | [] => Memory.cell i v
  | (j, w) :: rest =>
    if i < j then Memory.cell i v ++ (j, w) :: rest
    else if i = j then Memory.cell i v ++ rest
    else (j, w) :: Memory.write rest i v

/-! Access to the payload buffer `P` of a block (R27: `MemRead(i, 1)`, `MemWrite(i, 1, v)` for `0 ≤ i < PMAX`). -/

/-- `MemRead(i, 1)`; a byte at `PMAX` or more does not exist. -/
def State.memRead (s : State) (i : Nat) : Except Fault Byte :=
  if i < s.cfg.pmax then .ok (s.p.read i) else .error (.noSuchByte i)

/-- `MemWrite(i, 1, v)`; a byte at `PMAX` or more does not exist. -/
def State.memWrite (s : State) (i : Nat) (v : Byte) : Except Fault State :=
  if i < s.cfg.pmax then .ok { s with p := s.p.write i v } else .error (.noSuchByte i)

/-- `MemWrite(i, 1, b0)`, `MemWrite(i+1, 1, b1)`, … for the bytes of a list. -/
def State.memWriteList (s : State) (i : Nat) : List Byte → Except Fault State
  | [] => .ok s
  | b :: rest => (s.memWrite i b).bind fun s' => s'.memWriteList (i + 1) rest

/-- The wire position of `DB(n)`: `T.LEN - 1 - n`, used only where `n < T.LEN` (R31). -/
def State.dbPos (s : State) (n : Nat) : Nat := s.tLen.toNat - 1 - n

/-- `DB(n)`, for `n < T.LEN` (R31). -/
def State.readDB (s : State) (n : Nat) : Except Fault Byte := s.memRead (s.dbPos n)

/-- `DB(n) <- v`, for `n < T.LEN` (R31). -/
def State.writeDB (s : State) (n : Nat) (v : Byte) : Except Fault State := s.memWrite (s.dbPos n) v

/-- Allocation of a payload of length `len`: `T.LEN` is written and every byte of `P` becomes 0 (R37). -/
def State.allocate (s : State) (len : Byte) : State := { s with tLen := len, p := [] }

/-! The message registers together. -/

/-- The message the five registers hold. -/
def State.message (s : State) : Message :=
  { cmd := s.mCmd, pos := s.mPos, ang := s.mAng, lock := s.mLock, repos := s.mRepos }

/-- Writing all five message registers. -/
def State.setMessage (s : State) (m : Message) : State :=
  { s with mCmd := m.cmd, mPos := m.pos, mAng := m.ang, mLock := m.lock, mRepos := m.repos }

/-- A message constructed fresh for a command: position 127, angle 127, locking mode 0, repositioning mode Direct (R101,
R145). -/
def freshMessage (cmd : Byte) : Message := { cmd := cmd, pos := 127, ang := 127, lock := 0, repos := 0 }

/-! How an operation ends. -/

/-- Producing a response; it is the only trace of it in the state, and no operation reads it (R20). -/
def State.respond (s : State) (r : Response) : State := { s with response := some r }

/-- `respond(OK, 0, d)`: the operation ends in success. -/
def succeed (d : Byte) (s : State) : Host.Outcome State Fault Refusal := .next (s.respond (okResponse d))

/-- Raising an error, the one shared error entry (R164): no register and no payload byte is written, the response is
`(e, 0, 0)`, the operation ends. There is nothing to return from (R165). -/
def raise (e : ErrorCode) (s : State) : Host.Outcome State Fault Refusal := .next (s.respond (errorResponse e))

/-- An access that may find no byte, as the outcome of an operation. -/
def orFault {α : Type} (x : Except Fault α) (k : α → Host.Outcome State Fault Refusal) :
    Host.Outcome State Fault Refusal :=
  match x with
  | .ok a => k a
  | .error f => .fault f

/-! Inputs. -/

/-- Reset (R190, R191): every register takes its reset value, the two unspecified ones the bytes drawn; the block keeps
its configuration (R20) and the moves still to come. -/
def resetBlock (cmd etype : Byte) (s : State) : Host.Outcome State Fault Refusal :=
  .next { State.resetWith s.cfg cmd etype with inputs := s.inputs }

/-- What the block does next: nothing when no move is to come; the instruction of a request; a reset. The move is taken
off the list. -/
inductive Turn where
  | idle
  | run (i : Instr) (s : State)
  | restart (cmd etype : Byte) (s : State)
deriving DecidableEq, Repr

/-- Taking the next move (R193: one request at a time, in issue order). -/
def takeTurn (s : State) : Turn :=
  match s.inputs with
  | [] => .idle
  | .request w :: rest => .run (decodeRequest w) { s with inputs := rest }
  | .reset cmd etype :: rest => .restart cmd etype { s with inputs := rest }

/-- A telegram in the telegram registers: envelope type `ENV_VLD`, the given length, every payload byte 0 but the last,
`DB(0)`, which is `db0`. -/
def State.withTelegram (s : State) (len : Byte) (db0 : Byte) : State :=
  { s.allocate len with tEtype := s.cfg.envVld, p := Memory.write [] (len.toNat - 1) db0 }

/-- The length a telegram must have for the payload command in DB0 to be taken (R56). -/
def commandLength (cfg : Cfg) (db0 : Byte) : Byte :=
  match classify cfg ((commandNibble db0).setWidth 8) with
  | some .goTo => 4
  | some .reply => 4
  | some .query => 1
  | some .stop => 1
  | some .setParameters => 1
  | none => 1

/-- Placing a code where the next step takes it up: a request word as the next move of the host; a payload byte as DB0 of
a telegram in the telegram registers, with the request DEC as the next move. -/
def State.placeCode (s : State) : Code → State
  | .request w => { s with inputs := .request w :: s.inputs }
  | .payload db0 =>
    { s.withTelegram (commandLength s.cfg db0) db0 with inputs := .request (requestWord 0xC 0 0 0) :: s.inputs }

/-- Placing the code a number of the opcode table is; a number that is no code changes nothing. -/
def State.placeNumber (s : State) (nbits w : Nat) : State :=
  match codeOfNumber nbits w with
  | .ok c => s.placeCode c
  | .error _ => s

end Sys2Proof.Machine
end

