-- ==== Sys2Proof/Machine/Operands.lean ====
section
/-! DEFINITION. What an operand selects: a bit field of a byte (R80, R81) and a register of the register map (R22). -/

namespace Sys2Proof.Machine

/-- `mask(w) = 2^w - 1` within 8 bits (R27). -/
def mask (w : Nat) : Byte := BitVec.ofNat 8 (2 ^ w - 1)

/-- `ins(c, o, w, x)`: write the value `x` into the field of width `w` at offset `o` of `c`, or fail (R80). The tests are
made on unbounded numbers. -/
def ins (c : Byte) (o w : Nat) (x : Byte) : Except ErrorCode Byte :=
  if o + w > 8 then .error .fieldRangeError
  else if x.toNat ≥ 2 ^ w then .error .fieldRangeError
  else .ok ((c &&& ~~~(mask w <<< o)) ||| (x <<< o))

/-- `ext(c, o, w)`: read the field of width `w` at offset `o` of `c`, or fail (R81). -/
def ext (c : Byte) (o w : Nat) : Except ErrorCode Byte :=
  if o + w > 8 then .error .fieldRangeError
  else .ok ((c >>> o) &&& mask w)

/-- Reading a register of the map (R22). -/
def State.readReg (s : State) : RegName → Byte
  | .mCmd => s.mCmd
  | .mPos => s.mPos
  | .mAng => s.mAng
  | .mLock => s.mLock
  | .mRepos => s.mRepos
  | .tEtype => s.tEtype
  | .tLen => s.tLen

/-- Writing a register of the map (R22): any value, but `T.LEN` takes only a length up to `PMAX` and allocates (R37,
R103). -/
def State.writeReg (s : State) (r : RegName) (v : Byte) : Except ErrorCode State :=
  match r with
  | .mCmd => .ok { s with mCmd := v }
  | .mPos => .ok { s with mPos := v }
  | .mAng => .ok { s with mAng := v }
  | .mLock => .ok { s with mLock := v }
  | .mRepos => .ok { s with mRepos := v }
  | .tEtype => .ok { s with tEtype := v }
  | .tLen => if v.toNat > s.cfg.pmax then .error .badRequest else .ok (s.allocate v)

end Sys2Proof.Machine
end

