-- ==== Sys2Proof/Machine/BitField.lean ====
section
/-! DEFINITION. The bit-field unit: BFZ, BFLD, BFINS, BFEXT, BFRAW on the container `BF` (R82 to R86). -/

namespace Sys2Proof.Machine

/-- BFZ (R82). -/
def execBfz (s : State) : Host.Outcome State Fault Refusal := succeed 0 { s with bf := 0 }

/-- BFLD (R83). -/
def execBfld (v : Byte) (s : State) : Host.Outcome State Fault Refusal := succeed 0 { s with bf := v }

/-- BFINS: `a` the offset, `b` the width, `v` the value (R84). -/
def execBfins (a b : Nibble) (v : Byte) (s : State) : Host.Outcome State Fault Refusal :=
  match ins s.bf a.toNat b.toNat v with
  | .error e => raise e s
  | .ok r => succeed 0 { s with bf := r }

/-- BFEXT: `a` the offset, `b` the width (R85). -/
def execBfext (a b : Nibble) (s : State) : Host.Outcome State Fault Refusal :=
  match ext s.bf a.toNat b.toNat with
  | .error e => raise e s
  | .ok r => succeed r s

/-- BFRAW (R86). -/
def execBfraw (s : State) : Host.Outcome State Fault Refusal := succeed s.bf s

end Sys2Proof.Machine
end

