-- ==== Sys2Proof/Machine/Encoder.lean ====
section
/-! DEFINITION. The encoder: the pure function `encode` of R120, here `encodeMessage`, and the operation ENC (R124). -/

namespace Sys2Proof.Machine

/-- Step 1 of R120: DB0 with the command in bits 0 to 3 and channel 0 in bits 4 to 7. -/
def encodeDB0 (cmd : Byte) : Except ErrorCode Byte := do
  let db0 ← ins 0 0 4 cmd
  ins db0 4 4 0

/-- Step 3 of R120: DB1 with the locking mode in bits 0 to 2, and for a GoTo the repositioning mode in bits 4 to 6. -/
def encodeDB1 (goTo : Bool) (lock repos : Byte) : Except ErrorCode Byte := do
  let db1 ← ins 0 0 3 lock
  if goTo then ins db1 4 3 repos else .ok db1

/-- Step 3 of R120: the payload of a GoTo or a Reply in wire order, DB3 first. -/
def encodeF4 (goTo : Bool) (m : Message) (db0 : Byte) : Except ErrorCode (List Byte) := do
  let db3 ← ins 0 0 8 m.pos
  let db2 ← ins 0 0 8 m.ang
  let db1 ← encodeDB1 goTo m.lock m.repos
  .ok [db3, db2, db1, db0]

/-- `encode(cmd, pos, ang, lock, repos)`: the payload bytes in wire order, or a failure (R120, R121 to R123). -/
def encodeMessage (cfg : Cfg) (m : Message) : Except ErrorCode (List Byte) := do
  let db0 ← encodeDB0 m.cmd
  match classify cfg m.cmd with
  | some .query => .ok [db0]
  | some .stop => .ok [db0]
  | some .goTo => encodeF4 true m db0
  | some .reply => encodeF4 false m db0
  | some .setParameters => .error .notImplemented
  | none => .error .unknownCommand

/-- ENC: encode the message registers into the telegram registers; a failure writes nothing (R124). -/
def execEnc (s : State) : Host.Outcome State Fault Refusal :=
  match encodeMessage s.cfg s.message with
  | .error e => raise e s
  | .ok q =>
    orFault (({ s with tEtype := s.cfg.envVld }.allocate (BitVec.ofNat 8 q.length)).memWriteList 0 q) (succeed 0)

end Sys2Proof.Machine
end

