-- ==== Sys2Proof/Machine/HostAccess.lean ====
section
/-! DEFINITION. Host access: MNEW, HRD, HWR, GETDB, SETDB (R100 to R105). -/

namespace Sys2Proof.Machine

/-- MNEW: a fresh message for the command `v`, which is not checked (R101). -/
def execMnew (v : Byte) (s : State) : Host.Outcome State Fault Refusal := succeed 0 (s.setMessage (freshMessage v))

/-- HRD: read the register at index `a` (R102). -/
def execHrd (a : Nibble) (s : State) : Host.Outcome State Fault Refusal :=
  match regAt a with
  | none => raise .badRequest s
  | some r => succeed (s.readReg r) s

/-- HWR: write the register at index `a` (R103). -/
def execHwr (a : Nibble) (v : Byte) (s : State) : Host.Outcome State Fault Refusal :=
  match regAt a with
  | none => raise .badRequest s
  | some r =>
    match s.writeReg r v with
    | .error e => raise e s
    | .ok s' => succeed 0 s'

/-- GETDB: read `DB(a)` (R104). -/
def execGetdb (a : Nibble) (s : State) : Host.Outcome State Fault Refusal :=
  if a.toNat ≥ s.tLen.toNat then raise .badRequest s
  else orFault (s.readDB a.toNat) fun d => succeed d s

/-- SETDB: write `DB(a)` (R105). -/
def execSetdb (a : Nibble) (v : Byte) (s : State) : Host.Outcome State Fault Refusal :=
  if a.toNat ≥ s.tLen.toNat then raise .badRequest s
  else orFault (s.writeDB a.toNat v) (succeed 0)

end Sys2Proof.Machine
end

