-- ==== Sys2Proof/Machine/Decoder.lean ====
section
/-! DEFINITION. The decoder: the function `decode` of R141, here `decodeTelegram`, and the operations DEC (R145) and DECA
(R146). -/

namespace Sys2Proof.Machine

/-- What `decode` returns (R140): a message or a failure, and the diagnostic, none or a channel nibble. -/
structure Decoded where
  out : Except ErrorCode Message
  diag : Option Nibble
deriving DecidableEq, Repr

/-- Step 5 of R141: a GoTo or a Reply, `len` the payload length and `db` the accessor `DB(n)`. -/
def decodeF4 (goTo : Bool) (len : Nat) (db : Nat → Except Fault Byte) (m0 : Message) (cmd : Byte) (diag : Nibble) :
    Except Fault Decoded :=
  if len ≠ 4 then .ok { out := .error .payloadLengthMismatch, diag := some diag }
  else do
    let pos ← db 3
    let ang ← db 2
    let db1 ← db 1
    .ok {
      out := do
        let lock ← ext db1 0 3
        let repos ← if goTo then ext db1 4 3 else .ok m0.repos
        .ok { cmd := cmd, pos := pos, ang := ang, lock := lock, repos := repos }
      diag := some diag }

/-- Steps 3 to 6 of R141, from the byte DB0 on. -/
def decodeCommand (cfg : Cfg) (len : Nat) (db : Nat → Except Fault Byte) (m0 : Message) (db0 : Byte) :
    Except Fault Decoded :=
  let cmd : Byte := (commandNibble db0).setWidth 8
  let diag := channelNibble db0
  match classify cfg cmd with
  | some .query => .ok { out := .ok { m0 with cmd := cmd }, diag := some diag }
  | some .stop => .ok { out := .ok { m0 with cmd := cmd }, diag := some diag }
  | some .goTo => decodeF4 true len db m0 cmd diag
  | some .reply => decodeF4 false len db m0 cmd diag
  | some .setParameters => .ok { out := .error .unknownCommand, diag := some diag }
  | none => .ok { out := .error .unknownCommand, diag := some diag }

/-- Steps 1 and 2 of R141, then the rest with the byte DB0 that `fetchDB0` gives. -/
def decodeFrom (cfg : Cfg) (etype : Byte) (len : Nat) (db : Nat → Except Fault Byte) (fetchDB0 : Except Fault Byte)
    (m0 : Message) : Except Fault Decoded :=
  if etype ≠ cfg.envVld then .ok { out := .error .envelopeMismatch, diag := none }
  else if len < 1 then .ok { out := .error .emptyPayload, diag := none }
  else fetchDB0.bind (decodeCommand cfg len db m0)

/-- `decode(etype, L, DB, m0)` (R140, R141). -/
def decodeTelegram (cfg : Cfg) (etype : Byte) (len : Nat) (db : Nat → Except Fault Byte) (m0 : Message) :
    Except Fault Decoded :=
  decodeFrom cfg etype len db (db 0) m0

/-- How a decoder ends (R145): on success the message registers are written, on a failure nothing; the response carries
the diagnostic either way (R144). -/
def finishDecode (s : State) (d : Decoded) : Host.Outcome State Fault Refusal :=
  match d.out with
  | .error e => .next (s.respond (diagnosed (some e) d.diag))
  | .ok m => .next ((s.setMessage m).respond (diagnosed none d.diag))

/-- Decoding the telegram registers onto the starting message `m0` (R145, R146). -/
def decodeOnto (m0 : Message) (s : State) : Host.Outcome State Fault Refusal :=
  orFault (decodeTelegram s.cfg s.tEtype s.tLen.toNat s.readDB m0) (finishDecode s)

/-- DEC: decode into a fresh message (R145). -/
def execDec (s : State) : Host.Outcome State Fault Refusal := decodeOnto (freshMessage s.mCmd) s

/-- DECA: decode and apply onto the existing message (R146). -/
def execDeca (s : State) : Host.Outcome State Fault Refusal := decodeOnto s.message s

/-- Receiving the telegram registers' telegram, into a fresh message, with `db0` as its last byte DB0: what DEC does
from step 3 on once it has read that byte (R141, R145). -/
def receive (db0 : Byte) (s : State) : Host.Outcome State Fault Refusal :=
  orFault (decodeFrom s.cfg s.tEtype s.tLen.toNat s.readDB (.ok db0) (freshMessage s.mCmd)) (finishDecode s)

end Sys2Proof.Machine
end

