-- ==== Sys2Proof/Machine/Payload.lean ====
section
/-! DEFINITION. The five payload commands (R55, R56): each is the block's reception of a telegram whose DB0 is the
command's byte, the other bytes in the telegram registers. DEC performs it when DB0 in the telegram registers is that
byte (log entry 7). -/

namespace Sys2Proof.Machine

/-- QueryPositionAndAngle: only `M.CMD` comes from the payload, any length from 1 on (R141 step 4, R147). -/
def execQueryPositionAndAngle (ch : Nibble) (s : State) : Host.Outcome State Fault Refusal :=
  receive (encodePayload s.cfg .query ch) s

/-- Stop: only `M.CMD` comes from the payload, any length from 1 on (R141 step 4, R147). -/
def execStop (ch : Nibble) (s : State) : Host.Outcome State Fault Refusal := receive (encodePayload s.cfg .stop ch) s

/-- GoToPositionAndAngle: all five registers come from a payload of exactly 4 bytes (R141 step 5). -/
def execGoToPositionAndAngle (ch : Nibble) (s : State) : Host.Outcome State Fault Refusal :=
  receive (encodePayload s.cfg .goTo ch) s

/-- ReplyPositionAndAngle: all but the repositioning mode come from a payload of exactly 4 bytes (R141 step 5). -/
def execReplyPositionAndAngle (ch : Nibble) (s : State) : Host.Outcome State Fault Refusal :=
  receive (encodePayload s.cfg .reply ch) s

/-- SetParameters: it has no layout (R59) and the block answers UnknownCommand with the channel (R143). -/
def execSetParameters (ch : Nibble) (s : State) : Host.Outcome State Fault Refusal :=
  receive (encodePayload s.cfg .setParameters ch) s

end Sys2Proof.Machine
end

