-- ==== Sys2Proof/Machine/Reserved.lean ====
section
/-! DEFINITION. The three reserved operation codes: BadRequest, nothing changes (R64). -/

namespace Sys2Proof.Machine

/-- RESERVED_0, `op` 0x0 (R64). -/
def execReserved0 (s : State) : Host.Outcome State Fault Refusal := raise .badRequest s

/-- RESERVED_E, `op` 0xE (R64). -/
def execReservedE (s : State) : Host.Outcome State Fault Refusal := raise .badRequest s

/-- RESERVED_F, `op` 0xF (R64). -/
def execReservedF (s : State) : Host.Outcome State Fault Refusal := raise .badRequest s

end Sys2Proof.Machine
end

