-- ==== Sys2Proof/Machine/Dispatch.lean ====
section
/-! DEFINITION. The meaning of every instruction, one arm per constructor. -/

namespace Sys2Proof.Machine

/-- One operation, performed whole (R38). -/
def exec (i : Instr) (s : State) : Host.Outcome State Fault Refusal :=
  match i with
  | .reserved0 => Sys2Proof.Machine.execReserved0 s
  | .bfz => Sys2Proof.Machine.execBfz s
  | .bfld v => Sys2Proof.Machine.execBfld v s
  | .bfins a b v => Sys2Proof.Machine.execBfins a b v s
  | .bfext a b => Sys2Proof.Machine.execBfext a b s
  | .bfraw => Sys2Proof.Machine.execBfraw s
  | .mnew v => Sys2Proof.Machine.execMnew v s
  | .hrd a => Sys2Proof.Machine.execHrd a s
  | .hwr a v => Sys2Proof.Machine.execHwr a v s
  | .getdb a => Sys2Proof.Machine.execGetdb a s
  | .setdb a v => Sys2Proof.Machine.execSetdb a v s
  | .enc => Sys2Proof.Machine.execEnc s
  | .dec => Sys2Proof.Machine.execDec s
  | .deca => Sys2Proof.Machine.execDeca s
  | .reservedE => Sys2Proof.Machine.execReservedE s
  | .reservedF => Sys2Proof.Machine.execReservedF s
  | .queryPositionAndAngle ch => Sys2Proof.Machine.execQueryPositionAndAngle ch s
  | .stop ch => Sys2Proof.Machine.execStop ch s
  | .goToPositionAndAngle ch => Sys2Proof.Machine.execGoToPositionAndAngle ch s
  | .replyPositionAndAngle ch => Sys2Proof.Machine.execReplyPositionAndAngle ch s
  | .setParameters ch => Sys2Proof.Machine.execSetParameters ch s

end Sys2Proof.Machine
end

