-- ==== Sys2Proof/Machine/Step.lean ====
section
/-! DEFINITION. One step of the machine: the next move of host or platform, performed whole. -/

namespace Sys2Proof.Machine

/-- One step. A block whose configuration is not well-formed is refused (R6, R174); with no move to come the block is
idle and nothing changes; a request is decoded and performed (R193); a reset restarts the block (R190). -/
def step (s : State) : Host.Outcome State Fault Refusal :=
  if s.cfg.wf then
    match takeTurn s with
    | .idle => .next s
    | .run i s' => exec i s'
    | .restart cmd etype s' => resetBlock cmd etype s'
  else .refused .illFormedConfiguration

/-- `s` with the code that the number `w` of `nbits` bits is, placed where the next step takes it up: a request word as the
host's next request, a payload byte as DB0 of the received telegram with the request DEC (log entries 1 and 7). -/
def State.withFetchWord (s : State) (nbits w : Nat) : State := s.placeNumber nbits w

end Sys2Proof.Machine
end

