-- ==== Sys2Proof/Machine/Readings.lean ====
section
/-! DEFINITION. How a host must read the message registers (R13, R14, R194, R195), the texts of the errors (R167) and the
classes of a position or angle byte (`00_scope.md` section 7). No operation computes any of these. -/

namespace Sys2Proof.Machine

/-- Whether a message register means something under a command register (R13); the telegram registers are no message
registers. -/
def meaningful (cfg : Cfg) (cmd : Byte) (r : RegName) : Bool :=
  match classify cfg cmd, r with
  | some .query, .mCmd => true
  | some .stop, .mCmd => true
  | some .goTo, .mCmd | some .goTo, .mPos | some .goTo, .mAng | some .goTo, .mLock | some .goTo, .mRepos => true
  | some .reply, .mCmd | some .reply, .mPos | some .reply, .mAng | some .reply, .mLock => true
  | _, _ => false

/-- The two enumerations `M.LOCK` can be a member of (R14, R57); their members are plain numbers. -/
inductive LockReading where
  /-- *SetLockingMode*, "locking instruction". -/
  | instruction (n : Byte)
  /-- *LockingMode*, "locking status". -/
  | status (n : Byte)
deriving DecidableEq, Repr

/-- The reading of `M.LOCK`, selected by `M.CMD` (R14, R195). -/
def lockReading (cfg : Cfg) (m : Message) : Option LockReading :=
  match classify cfg m.cmd with
  | some .goTo => some (.instruction m.lock)
  | some .reply => some (.status m.lock)
  | some .query => none
  | some .stop => none
  | some .setParameters => none
  | none => none

/-- The classes of a position or angle byte (`00_scope.md` section 7). -/
inductive AngleReading where
  | keep
  | outOfRange
  | value (n : Nat)
deriving DecidableEq, Repr

/-- 127 is "keep", above it is out of range, below it a value (`00_scope.md` section 7). -/
def angleReading (x : Byte) : AngleReading :=
  if x.toNat = 127 then .keep else if x.toNat > 127 then .outOfRange else .value x.toNat

/-- The texts the source gives the errors of a decoder (R167). -/
def decodeErrorText : ErrorCode → Option String
  | .envelopeMismatch => some "not a D2-05-00 message: wrong envelope type."
  | .emptyPayload => some "not a D2-05-00 message: empty payload."
  | .payloadLengthMismatch => some "payload size must be 4 for this command."
  | .unknownCommand => some "unknown/unimplemented command."
  | .notImplemented => none
  | .fieldRangeError => none
  | .badRequest => none

/-- The texts the source gives the errors of the encoder (R167). DESIGN CHOICE, safe: FieldRangeError has "no text given"
there, and here its name in the source's §4.1, "RangeError", stands for one (log entry 16). -/
def encodeErrorText : ErrorCode → Option String
  | .unknownCommand => some "unknown command"
  | .notImplemented => some "not implemented"
  | .fieldRangeError => some "RangeError"
  | .envelopeMismatch => none
  | .emptyPayload => none
  | .payloadLengthMismatch => none
  | .badRequest => none

end Sys2Proof.Machine
end

