-- ==== Sys2Proof/Safety.lean ====
section
/-! DEFINITION. The terms claims use: the invariant of a block, the pieces of its state and which operation may write
which (R23), which response an operation can give (R161), operations performed one after another (R42). -/

namespace Sys2Proof.Machine

/-- The states a block can be in: a well-formed configuration (R6), `T.LEN ≤ PMAX` (R16), the payload buffer in canonical
form, and every byte from wire position `T.LEN` on 0 (R17). -/
abbrev State.Inv (s : State) : Prop :=
  s.cfg.wf = true ∧ s.tLen.toNat ≤ s.cfg.pmax ∧ s.p.wf = true ∧ s.p.all (fun c => decide (c.1 < s.tLen.toNat)) = true

/-- The nine pieces of architectural state (R10). -/
inductive Piece where
  | bf
  | mCmd
  | mPos
  | mAng
  | mLock
  | mRepos
  | tEtype
  | tLen
  | p
deriving DecidableEq, Repr

/-- Two states agree on a piece; on `P` when every byte reads the same. -/
def Piece.Same (x : Piece) (s t : State) : Prop :=
  match x with
  | .bf => t.bf = s.bf
  | .mCmd => t.mCmd = s.mCmd
  | .mPos => t.mPos = s.mPos
  | .mAng => t.mAng = s.mAng
  | .mLock => t.mLock = s.mLock
  | .mRepos => t.mRepos = s.mRepos
  | .tEtype => t.tEtype = s.tEtype
  | .tLen => t.tLen = s.tLen
  | .p => ∀ i, t.p.read i = s.p.read i

/-- The frame of an operation: from `s` to `t` nothing changed but the pieces listed and the response. -/
def State.SameBut (xs : List Piece) (s t : State) : Prop :=
  (∀ x : Piece, x ∉ xs → x.Same s t) ∧ t.cfg = s.cfg ∧ t.inputs = s.inputs

/-- The piece a register of the map is (R22). -/
def RegName.piece : RegName → Piece
  | .mCmd => .mCmd
  | .mPos => .mPos
  | .mAng => .mAng
  | .mLock => .mLock
  | .mRepos => .mRepos
  | .tEtype => .tEtype
  | .tLen => .tLen

/-- The access matrix (R23): whether an operation may write a piece. Of DECA's cells, which R23 gives per command, it says
only that DECA may write the message registers. R23 has no row for a payload command: the row here, what DEC writes, is
the model's (log entry 7). -/
def mayWrite (i : Instr) (x : Piece) : Bool :=
  match i with
  | .bfz | .bfld _ | .bfins _ _ _ => x == .bf
  | .bfext _ _ | .bfraw | .hrd _ | .getdb _ | .reserved0 | .reservedE | .reservedF => false
  | .mnew _ | .dec | .deca => x == .mCmd || x == .mPos || x == .mAng || x == .mLock || x == .mRepos
  | .queryPositionAndAngle _ | .stop _ | .goToPositionAndAngle _ | .replyPositionAndAngle _ | .setParameters _ =>
    x == .mCmd || x == .mPos || x == .mAng || x == .mLock || x == .mRepos
  | .hwr a _ =>
    match regAt a with
    | none => false
    | some .tLen => x == .tLen || x == .p
    | some r => x == RegName.piece r
  | .setdb _ _ => x == .p
  | .enc => x == .tEtype || x == .tLen || x == .p

/-- Which errors an operation can report (R161). R161 has no row for a payload command: the row here, what DEC can report
as far as that command goes, is the model's (log entry 7). -/
def mayReport (i : Instr) (e : ErrorCode) : Bool :=
  match i with
  | .bfz | .bfld _ | .bfraw | .mnew _ => false
  | .bfins _ _ _ | .bfext _ _ => e == .fieldRangeError
  | .hrd _ | .hwr _ _ | .getdb _ | .setdb _ _ | .reserved0 | .reservedE | .reservedF => e == .badRequest
  | .enc => e == .unknownCommand || e == .notImplemented || e == .fieldRangeError
  | .dec | .deca => e == .envelopeMismatch || e == .emptyPayload || e == .payloadLengthMismatch || e == .unknownCommand
  | .queryPositionAndAngle _ | .stop _ => e == .envelopeMismatch || e == .emptyPayload
  | .goToPositionAndAngle _ | .replyPositionAndAngle _ =>
    e == .envelopeMismatch || e == .emptyPayload || e == .payloadLengthMismatch
  | .setParameters _ => e == .envelopeMismatch || e == .emptyPayload || e == .unknownCommand

/-- Whether an operation can end in success (R161): all but the reserved codes. The rows of the payload commands are the
model's (log entry 7): all can but SetParameters, which no decoder accepts (R143). -/
def maySucceed : Instr → Bool
  | .reserved0 | .reservedE | .reservedF | .setParameters _ => false
  | .bfz | .bfld _ | .bfins _ _ _ | .bfext _ _ | .bfraw | .mnew _ | .hrd _ | .hwr _ _ | .getdb _ | .setdb _ _ | .enc
  | .dec | .deca | .queryPositionAndAngle _ | .stop _ | .goToPositionAndAngle _ | .replyPositionAndAngle _ => true

/-- The request word `op << 16 | a << 12 | b << 8 | v`, as a number (R60, R68). -/
def reqNumber (op : Nat) (a b : Nibble) (v : Byte) : RequestWord :=
  BitVec.ofNat 20 (op * 2 ^ 16 + a.toNat * 2 ^ 12 + b.toNat * 2 ^ 8 + v.toNat)

/-- Operations performed one after another, each to completion (R42), as long as none stops. -/
def execAll : List Instr → State → Host.Outcome State Fault Refusal
  | [], s => .next s
  | i :: rest, s =>
    match exec i s with
    | .next t => execAll rest t
    | .fault f => .fault f
    | .refused r => .refused r

/-- The last response reports no error: "a claim that wants 'nothing went wrong' must say so itself" (R174). -/
abbrev State.lastOk (s : State) : Prop := (s.response.map (·.err)) = some none

end Sys2Proof.Machine
end

