-- ==== Sys2Proof/Certificates/Slice0/Obligations.lean ====
section
/-! DEFINITION. The statements for the provers, one `def Obligations.<Name> : Prop` each. A request word is written
`reqNumber op a b v`, the number `op << 16 | a << 12 | b << 8 | v` (R60). -/

open Sys2Proof Sys2Proof.Machine

/-! Encodings. -/

/-- R66: the error codes of the response word, 0 for OK and 1 to 7 for the errors in order. -/
def Obligations.ResponseErrorCodes : Prop :=
  ∀ (warn : Bool) (data : Byte),
    (Response.word { err := none, warn := warn, data := data }).extractLsb' 9 3 = 0 ∧
    (Response.word { err := some .envelopeMismatch, warn := warn, data := data }).extractLsb' 9 3 = 1 ∧
    (Response.word { err := some .emptyPayload, warn := warn, data := data }).extractLsb' 9 3 = 2 ∧
    (Response.word { err := some .payloadLengthMismatch, warn := warn, data := data }).extractLsb' 9 3 = 3 ∧
    (Response.word { err := some .unknownCommand, warn := warn, data := data }).extractLsb' 9 3 = 4 ∧
    (Response.word { err := some .notImplemented, warn := warn, data := data }).extractLsb' 9 3 = 5 ∧
    (Response.word { err := some .fieldRangeError, warn := warn, data := data }).extractLsb' 9 3 = 6 ∧
    (Response.word { err := some .badRequest, warn := warn, data := data }).extractLsb' 9 3 = 7

/-- R65, the field table: `err[11:9] warn[8] data[7:0]`, as a number. -/
def Obligations.ResponseWordLayout : Prop :=
  ∀ r : Response, r.word.toNat = (errCode r.err).toNat * 2 ^ 9 + r.warn.toNat * 2 ^ 8 + r.data.toNat

/-- R62: unused fields are ignored by the decoder, whatever they hold, and the encoder writes them as 0. -/
def Obligations.UnusedFieldsIgnored : Prop :=
  ∀ (a b : Nibble) (v : Byte) (cfg : Cfg),
    (decodeRequest (reqNumber 0x0 a b v) = .reserved0 ∧ encode cfg .reserved0 = .request (reqNumber 0x0 0 0 0)) ∧
    (decodeRequest (reqNumber 0x1 a b v) = .bfz ∧ encode cfg .bfz = .request (reqNumber 0x1 0 0 0)) ∧
    (decodeRequest (reqNumber 0x2 a b v) = .bfld v ∧ encode cfg (.bfld v) = .request (reqNumber 0x2 0 0 v)) ∧
    (decodeRequest (reqNumber 0x3 a b v) = .bfins a b v ∧
      encode cfg (.bfins a b v) = .request (reqNumber 0x3 a b v)) ∧
    (decodeRequest (reqNumber 0x4 a b v) = .bfext a b ∧ encode cfg (.bfext a b) = .request (reqNumber 0x4 a b 0)) ∧
    (decodeRequest (reqNumber 0x5 a b v) = .bfraw ∧ encode cfg .bfraw = .request (reqNumber 0x5 0 0 0)) ∧
    (decodeRequest (reqNumber 0x6 a b v) = .mnew v ∧ encode cfg (.mnew v) = .request (reqNumber 0x6 0 0 v)) ∧
    (decodeRequest (reqNumber 0x7 a b v) = .hrd a ∧ encode cfg (.hrd a) = .request (reqNumber 0x7 a 0 0)) ∧
    (decodeRequest (reqNumber 0x8 a b v) = .hwr a v ∧ encode cfg (.hwr a v) = .request (reqNumber 0x8 a 0 v)) ∧
    (decodeRequest (reqNumber 0x9 a b v) = .getdb a ∧ encode cfg (.getdb a) = .request (reqNumber 0x9 a 0 0)) ∧
    (decodeRequest (reqNumber 0xA a b v) = .setdb a v ∧ encode cfg (.setdb a v) = .request (reqNumber 0xA a 0 v)) ∧
    (decodeRequest (reqNumber 0xB a b v) = .enc ∧ encode cfg .enc = .request (reqNumber 0xB 0 0 0)) ∧
    (decodeRequest (reqNumber 0xC a b v) = .dec ∧ encode cfg .dec = .request (reqNumber 0xC 0 0 0)) ∧
    (decodeRequest (reqNumber 0xD a b v) = .deca ∧ encode cfg .deca = .request (reqNumber 0xD 0 0 0)) ∧
    (decodeRequest (reqNumber 0xE a b v) = .reservedE ∧ encode cfg .reservedE = .request (reqNumber 0xE 0 0 0)) ∧
    (decodeRequest (reqNumber 0xF a b v) = .reservedF ∧ encode cfg .reservedF = .request (reqNumber 0xF 0 0 0))

/-- Words written out from the spec's tables decode to the instructions they stand for (`95_test_vectors.md` sections 2.1
to 2.6, payload bytes of CFG_DOC). -/
def Obligations.SpecWordsDecode : Prop :=
  decodeRequest 0x34306 = .bfins 4 3 6 ∧ decodeRequest 0x44300 = .bfext 4 3 ∧ decodeRequest 0x8102A = .hwr 1 42 ∧
  decodeRequest 0xA1022 = .setdb 1 0x22 ∧ decodeRequest 0xB1234 = .enc ∧ decodeRequest 0xEFFFF = .reservedE ∧
  (decode .doc (.payload 0x22)).toOption = some (.goToPositionAndAngle 2) ∧
  (decode .doc (.payload 0xF1)).toOption = some (.stop 15) ∧ (decode .doc (.payload 0x06)).toOption = none

/-- Decoding what an instruction is encoded as gives the instruction back, for every instruction well-formed under the
configuration, with every operand. -/
def Obligations.DecodeOfEncode : Prop :=
  ∀ (cfg : Cfg) (i : Instr), i.wf cfg = true → decode cfg (encode cfg i) = .ok i

/-- The other way round: a payload byte that decodes is the byte its instruction is encoded as; a request word decodes to
an instruction whose word has the same `op` and decodes alike. -/
def Obligations.EncodeOfDecode : Prop :=
  ∀ (cfg : Cfg), cfg.wf = true →
    (∀ (db0 : Byte) (i : Instr), decode cfg (.payload db0) = .ok i → encode cfg i = .payload db0) ∧
    (∀ w : RequestWord, ∃ w', encode cfg (decodeRequest w) = .request w' ∧ reqOp w' = reqOp w ∧
      decodeRequest w' = decodeRequest w)

/-- R51, R55: the low nibble of DB0 selects the command, the high nibble is the channel; every other nibble is an unknown
command. -/
def Obligations.PayloadByteSelectsCommand : Prop :=
  ∀ (cfg : Cfg) (ch n : Nibble), cfg.wf = true →
    (n.toNat = cfg.cmdQuery.toNat → decode cfg (.payload (db0Byte ch n)) = .ok (.queryPositionAndAngle ch)) ∧
    (n.toNat = cfg.cmdStop.toNat → decode cfg (.payload (db0Byte ch n)) = .ok (.stop ch)) ∧
    (n.toNat = cfg.cmdGoTo.toNat → decode cfg (.payload (db0Byte ch n)) = .ok (.goToPositionAndAngle ch)) ∧
    (n.toNat = cfg.cmdReply.toNat → decode cfg (.payload (db0Byte ch n)) = .ok (.replyPositionAndAngle ch)) ∧
    (n.toNat = cfg.cmdSetParams.toNat → decode cfg (.payload (db0Byte ch n)) = .ok (.setParameters ch)) ∧
    ((∀ c, n.toNat ≠ (cfg.code c).toNat) →
      decode cfg (.payload (db0Byte ch n)) = .error (.unknownCommand n))

/-! The bit-field unit. -/

/-- R82: BFZ. -/
def Obligations.BfzZeroesContainer : Prop :=
  ∀ (s : State) (a b : Nibble) (v : Byte),
    decodeRequest (reqNumber 0x1 a b v) = .bfz ∧
    exec .bfz s = .next { s with bf := 0, response := some { err := none, warn := false, data := 0 } }

/-- R83: BFLD. -/
def Obligations.BfldLoadsContainer : Prop :=
  ∀ (s : State) (a b : Nibble) (v : Byte),
    decodeRequest (reqNumber 0x2 a b v) = .bfld v ∧
    exec (.bfld v) s = .next { s with bf := v, response := some { err := none, warn := false, data := 0 } }

/-- R84: BFINS writes the field and only the field, or fails with FieldRangeError and leaves `BF`. -/
def Obligations.BfinsWritesField : Prop :=
  ∀ (s : State) (a b : Nibble) (v : Byte),
    decodeRequest (reqNumber 0x3 a b v) = .bfins a b v ∧
    (a.toNat + b.toNat ≤ 8 → v.toNat < 2 ^ b.toNat → ∃ r : Byte,
      exec (.bfins a b v) s =
        .next { s with bf := r, response := some { err := none, warn := false, data := 0 } } ∧
      ∀ k < 8, r.getLsbD k =
        if a.toNat ≤ k ∧ k < a.toNat + b.toNat then v.getLsbD (k - a.toNat) else s.bf.getLsbD k) ∧
    ((8 < a.toNat + b.toNat ∨ 2 ^ b.toNat ≤ v.toNat) →
      exec (.bfins a b v) s =
        .next { s with response := some { err := some .fieldRangeError, warn := false, data := 0 } })

/-- R85: BFEXT responds with the field, or fails with FieldRangeError; `BF` is never changed. -/
def Obligations.BfextReadsField : Prop :=
  ∀ (s : State) (a b : Nibble) (v : Byte),
    decodeRequest (reqNumber 0x4 a b v) = .bfext a b ∧
    (a.toNat + b.toNat ≤ 8 → ∃ d : Byte,
      exec (.bfext a b) s = .next { s with response := some { err := none, warn := false, data := d } } ∧
      ∀ k < 8, d.getLsbD k = (decide (k < b.toNat) && s.bf.getLsbD (a.toNat + k))) ∧
    (8 < a.toNat + b.toNat →
      exec (.bfext a b) s =
        .next { s with response := some { err := some .fieldRangeError, warn := false, data := 0 } })

/-- R86: BFRAW responds with the container, the same data as `BFEXT 0, 8`. -/
def Obligations.BfrawReturnsContainer : Prop :=
  ∀ (s : State) (a b : Nibble) (v : Byte),
    decodeRequest (reqNumber 0x5 a b v) = .bfraw ∧
    exec .bfraw s = .next { s with response := some { err := none, warn := false, data := s.bf } } ∧
    exec (.bfext 0 8) s = exec .bfraw s

/-- R80: `ins` succeeds exactly when the field lies in the byte and the value fits; then bit `k` of the value stands at
bit `o + k` and every other bit is the container's. Width 0 at an offset up to 8 changes nothing. -/
def Obligations.InsertBitByBit : Prop :=
  (∀ (c : Byte) (o w : Nat) (x : Byte), o + w ≤ 8 → x.toNat < 2 ^ w → ∃ r : Byte, ins c o w x = .ok r ∧
    (∀ k < w, r.getLsbD (o + k) = x.getLsbD k) ∧ ∀ k < 8, (k < o ∨ o + w ≤ k) → r.getLsbD k = c.getLsbD k) ∧
  (∀ (c : Byte) (o w : Nat) (x : Byte), (8 < o + w ∨ 2 ^ w ≤ x.toNat) → ins c o w x = .error .fieldRangeError) ∧
  (∀ (c : Byte) (o : Nat), o ≤ 8 → ins c o 0 0 = .ok c)

/-- R81: `ext` succeeds exactly when the field lies in the byte; the result is below `2^w` and its bits are the field's. -/
def Obligations.ExtractBitByBit : Prop :=
  (∀ (c : Byte) (o w : Nat), o + w ≤ 8 → ∃ r : Byte, ext c o w = .ok r ∧ r.toNat < 2 ^ w ∧
    ∀ k < w, r.getLsbD k = c.getLsbD (o + k)) ∧
  (∀ (c : Byte) (o w : Nat), 8 < o + w → ext c o w = .error .fieldRangeError) ∧
  (∀ c : Byte, ext c 0 8 = .ok c) ∧ (∀ (c : Byte) (o : Nat), o ≤ 8 → ext c o 0 = .ok 0)

/-- R87 (i) to (v): the laws of insert and extract, and (i) of the operations. -/
def Obligations.FieldLaws : Prop :=
  ∀ (c : Byte) (o w : Nat) (x : Byte), o + w ≤ 8 → x.toNat < 2 ^ w →
    (ins c o w x).bind (fun r => ext r o w) = .ok x ∧
    (∀ r, ins c o w x = .ok r → r &&& ~~~(mask w <<< o) = c &&& ~~~(mask w <<< o)) ∧
    (∀ o' w' : Nat, o' + w' ≤ 8 → (o + w ≤ o' ∨ o' + w' ≤ o) →
      (ins c o w x).bind (fun r => ext r o' w') = ext c o' w' ∧
      ∀ x' : Byte, x'.toNat < 2 ^ w' →
        (ins c o w x).bind (fun r => ins r o' w' x') = (ins c o' w' x').bind (fun r => ins r o w x)) ∧
    (ext c o w).bind (fun y => ins c o w y) = .ok c ∧
    (ins 0 0 8 x = .ok x ∧ ext c 0 8 = .ok c) ∧
    (∀ (s : State) (a b : Nibble), a.toNat = o → b.toNat = w → ∃ t,
      execAll [.bfins a b x, .bfext a b] s = .next t ∧
      t.response = some { err := none, warn := false, data := x })

/-! Host access. -/

/-- R101: MNEW makes a fresh message. -/
def Obligations.MnewMakesFreshMessage : Prop :=
  ∀ (s : State) (a b : Nibble) (v : Byte),
    decodeRequest (reqNumber 0x6 a b v) = .mnew v ∧
    exec (.mnew v) s = .next { s with
      mCmd := v, mPos := 127, mAng := 127, mLock := 0, mRepos := 0,
      response := some { err := none, warn := false, data := 0 } }

/-- R102: HRD reads the register at an index of the map and changes nothing; 7 to 15 are BadRequest. -/
def Obligations.HrdReadsRegister : Prop :=
  ∀ (s : State) (a b : Nibble) (v : Byte),
    decodeRequest (reqNumber 0x7 a b v) = .hrd a ∧
    exec (.hrd 0) s = .next { s with response := some { err := none, warn := false, data := s.mCmd } } ∧
    exec (.hrd 1) s = .next { s with response := some { err := none, warn := false, data := s.mPos } } ∧
    exec (.hrd 2) s = .next { s with response := some { err := none, warn := false, data := s.mAng } } ∧
    exec (.hrd 3) s = .next { s with response := some { err := none, warn := false, data := s.mLock } } ∧
    exec (.hrd 4) s = .next { s with response := some { err := none, warn := false, data := s.mRepos } } ∧
    exec (.hrd 5) s = .next { s with response := some { err := none, warn := false, data := s.tEtype } } ∧
    exec (.hrd 6) s = .next { s with response := some { err := none, warn := false, data := s.tLen } } ∧
    (6 < a.toNat →
      exec (.hrd a) s = .next { s with response := some { err := some .badRequest, warn := false, data := 0 } })

/-- R103: HWR writes one register, any value; `T.LEN` only up to `PMAX`, clearing the whole payload buffer; 7 to 15 are
BadRequest. -/
def Obligations.HwrWritesRegister : Prop :=
  ∀ (s : State) (a b : Nibble) (v : Byte),
    decodeRequest (reqNumber 0x8 a b v) = .hwr a v ∧
    exec (.hwr 0 v) s = .next { s with mCmd := v, response := some { err := none, warn := false, data := 0 } } ∧
    exec (.hwr 1 v) s = .next { s with mPos := v, response := some { err := none, warn := false, data := 0 } } ∧
    exec (.hwr 2 v) s = .next { s with mAng := v, response := some { err := none, warn := false, data := 0 } } ∧
    exec (.hwr 3 v) s = .next { s with mLock := v, response := some { err := none, warn := false, data := 0 } } ∧
    exec (.hwr 4 v) s = .next { s with mRepos := v, response := some { err := none, warn := false, data := 0 } } ∧
    exec (.hwr 5 v) s = .next { s with tEtype := v, response := some { err := none, warn := false, data := 0 } } ∧
    (v.toNat ≤ s.cfg.pmax → ∃ t, exec (.hwr 6 v) s = .next t ∧ t.tLen = v ∧ (∀ i, t.p.read i = 0) ∧
      State.SameBut [.tLen, .p] s t ∧ t.response = some { err := none, warn := false, data := 0 }) ∧
    (s.cfg.pmax < v.toNat →
      exec (.hwr 6 v) s = .next { s with response := some { err := some .badRequest, warn := false, data := 0 } }) ∧
    (6 < a.toNat →
      exec (.hwr a v) s = .next { s with response := some { err := some .badRequest, warn := false, data := 0 } })

/-- R104: GETDB reads the byte at wire position `T.LEN - 1 - a`; an index of `T.LEN` or more is BadRequest. -/
def Obligations.GetdbReadsByte : Prop :=
  ∀ (s : State) (a b : Nibble) (v : Byte), s.tLen.toNat ≤ s.cfg.pmax →
    decodeRequest (reqNumber 0x9 a b v) = .getdb a ∧
    (a.toNat < s.tLen.toNat →
      exec (.getdb a) s = .next { s with
        response := some { err := none, warn := false, data := s.p.read (s.tLen.toNat - 1 - a.toNat) } }) ∧
    (s.tLen.toNat ≤ a.toNat →
      exec (.getdb a) s = .next { s with response := some { err := some .badRequest, warn := false, data := 0 } })

/-- R105: SETDB writes the byte at wire position `T.LEN - 1 - a` and nothing else; an index of `T.LEN` or more is
BadRequest. -/
def Obligations.SetdbWritesByte : Prop :=
  ∀ (s : State) (a b : Nibble) (v : Byte), s.tLen.toNat ≤ s.cfg.pmax → s.p.wf = true →
    decodeRequest (reqNumber 0xA a b v) = .setdb a v ∧
    (a.toNat < s.tLen.toNat → ∃ t, exec (.setdb a v) s = .next t ∧
      t.p.read (s.tLen.toNat - 1 - a.toNat) = v ∧
      (∀ i, i ≠ s.tLen.toNat - 1 - a.toNat → t.p.read i = s.p.read i) ∧
      State.SameBut [.p] s t ∧ t.response = some { err := none, warn := false, data := 0 }) ∧
    (s.tLen.toNat ≤ a.toNat →
      exec (.setdb a v) s = .next { s with response := some { err := some .badRequest, warn := false, data := 0 } })

/-- R31 through the two operations: after SETDB of `a`, GETDB of `a` responds the value written, GETDB of every other DB
index what it responded before. -/
def Obligations.SetdbThenGetdb : Prop :=
  ∀ (s : State) (a a' : Nibble) (v : Byte), s.Inv → a.toNat < s.tLen.toNat → ∃ t u u',
    exec (.setdb a v) s = .next t ∧ exec (.getdb a') t = .next u ∧ exec (.getdb a') s = .next u' ∧
    (a' = a → u.response = some { err := none, warn := false, data := v }) ∧
    (a' ≠ a → u.response = u'.response)

/-- R106 (ii), R69: the expansion of TLOAD reaches every telegram of at most `PMAX` bytes, from every state of a block;
beyond the payload every byte is 0. -/
def Obligations.TloadReachesEveryTelegram : Prop :=
  ∀ (s : State) (t : Byte) (bytes : List Byte), s.Inv → bytes.length ≤ s.cfg.pmax → ∃ u,
    execAll (Pseudo.tload t bytes).expand s = .next u ∧ u.tEtype = t ∧ u.tLen.toNat = bytes.length ∧
    (∀ i, u.p.read i = bytes.getD i 0) ∧ State.SameBut [.tEtype, .tLen, .p] s u

/-- R106 (iii): two blocks of one configuration that answer every HRD, GETDB and BFRAW alike hold the same architectural
state. -/
def Obligations.HostObservesWholeState : Prop :=
  ∀ s s' : State, s.Inv → s'.Inv → s.cfg = s'.cfg →
    (∀ i : Instr, (i = .bfraw ∨ ∃ a, i = .hrd a ∨ i = .getdb a) →
      ∃ t t', exec i s = .next t ∧ exec i s' = .next t' ∧ t.response = t'.response) →
    s' = { s with inputs := s'.inputs, response := s'.response }

/-! The encoder. -/

/-- R120 step 2, R124: ENC of a Query or a Stop makes the one-byte payload DB0, whatever the other message registers
hold. -/
def Obligations.EncQueryAndStop : Prop :=
  ∀ s : State, s.cfg.wf = true → (s.mCmd = s.cfg.cmdQuery ∨ s.mCmd = s.cfg.cmdStop) → ∃ t,
    exec .enc s = .next t ∧ t.tEtype = s.cfg.envVld ∧ t.tLen = 1 ∧ t.p.read 0 = s.mCmd ∧
    (∀ i, 1 ≤ i → t.p.read i = 0) ∧ State.SameBut [.tEtype, .tLen, .p] s t ∧
    t.response = some { err := none, warn := false, data := 0 }

/-- R120 step 3, R124: ENC of a GoTo makes the payload DB3 = position, DB2 = angle, DB1 = locking mode in bits 0 to 2 and
repositioning mode in bits 4 to 6, DB0 = command, in wire order. -/
def Obligations.EncGoTo : Prop :=
  ∀ s : State, s.cfg.wf = true → s.mCmd = s.cfg.cmdGoTo → s.mLock.toNat < 8 → s.mRepos.toNat < 8 → ∃ t,
    exec .enc s = .next t ∧ t.tEtype = s.cfg.envVld ∧ t.tLen = 4 ∧
    t.p.read 0 = s.mPos ∧ t.p.read 1 = s.mAng ∧ (t.p.read 2).toNat = s.mLock.toNat + 16 * s.mRepos.toNat ∧
    t.p.read 3 = s.mCmd ∧ (∀ i, 4 ≤ i → t.p.read i = 0) ∧ State.SameBut [.tEtype, .tLen, .p] s t ∧
    t.response = some { err := none, warn := false, data := 0 }

/-- R120 step 3, R124: ENC of a Reply makes the payload with DB1 = locking mode; the repositioning mode is not
consulted. -/
def Obligations.EncReply : Prop :=
  ∀ s : State, s.cfg.wf = true → s.mCmd = s.cfg.cmdReply → s.mLock.toNat < 8 → ∃ t,
    exec .enc s = .next t ∧ t.tEtype = s.cfg.envVld ∧ t.tLen = 4 ∧
    t.p.read 0 = s.mPos ∧ t.p.read 1 = s.mAng ∧ t.p.read 2 = s.mLock ∧ t.p.read 3 = s.mCmd ∧
    (∀ i, 4 ≤ i → t.p.read i = 0) ∧ State.SameBut [.tEtype, .tLen, .p] s t ∧
    t.response = some { err := none, warn := false, data := 0 }

/-- R123: ENC of SetParameters is NotImplemented, of every other command of 0 to 15 that is none of the five codes
UnknownCommand; nothing else changes. -/
def Obligations.EncRefusedCommands : Prop :=
  ∀ s : State, s.cfg.wf = true →
    (s.mCmd = s.cfg.cmdSetParams →
      exec .enc s = .next { s with response := some { err := some .notImplemented, warn := false, data := 0 } }) ∧
    (s.mCmd.toNat < 16 → (∀ c, s.mCmd ≠ s.cfg.code c) →
      exec .enc s = .next { s with response := some { err := some .unknownCommand, warn := false, data := 0 } })

/-- R121, R122: the values ENC refuses with FieldRangeError; nothing else changes. -/
def Obligations.EncFieldRange : Prop :=
  ∀ s : State, s.cfg.wf = true →
    (16 ≤ s.mCmd.toNat ∨ (s.mCmd = s.cfg.cmdGoTo ∧ (8 ≤ s.mLock.toNat ∨ 8 ≤ s.mRepos.toNat)) ∨
      (s.mCmd = s.cfg.cmdReply ∧ 8 ≤ s.mLock.toNat)) →
    exec .enc s = .next { s with response := some { err := some .fieldRangeError, warn := false, data := 0 } }

/-- R125: no stale field reaches the wire. Two blocks whose message registers agree where the command makes them
meaningful (R13) answer ENC alike and, on success, hold the same telegram. -/
def Obligations.EncLeaksNoStaleField : Prop :=
  ∀ s s' : State, s.cfg = s'.cfg → s.cfg.wf = true → s.mCmd = s'.mCmd →
    (∀ r, meaningful s.cfg s.mCmd r = true → s.readReg r = s'.readReg r) → ∃ t t',
    exec .enc s = .next t ∧ exec .enc s' = .next t' ∧ t.response = t'.response ∧
    (t.lastOk → t.tEtype = t'.tEtype ∧ t.tLen = t'.tLen ∧ ∀ i, t.p.read i = t'.p.read i)

/-- R127: a payload ENC makes has one byte or four, channel 0, and DB1 bits 3 and 7 clear; ENC reports no other error than
UnknownCommand, NotImplemented and FieldRangeError, and never warns. -/
def Obligations.EncOutputBounds : Prop :=
  ∀ s : State, s.cfg.wf = true → ∃ t r, exec .enc s = .next t ∧ t.response = some r ∧ r.warn = false ∧ r.data = 0 ∧
    (∀ e, r.err = some e → e = .unknownCommand ∨ e = .notImplemented ∨ e = .fieldRangeError) ∧
    (r.err = none → (t.tLen = 1 ∨ t.tLen = 4) ∧ channelNibble (t.p.read (t.tLen.toNat - 1)) = 0 ∧
      (t.tLen = 4 → (t.p.read 2).getLsbD 3 = false ∧ (t.p.read 2).getLsbD 7 = false))

/-! The decoder. -/

/-- R141 step 4, R145, R146: a telegram whose DB0 carries Query or Stop, of any length from 1 on. -/
def Obligations.DecQueryAndStop : Prop :=
  ∀ (s : State) (ch n : Nibble), s.cfg.wf = true → s.tEtype = s.cfg.envVld → 1 ≤ s.tLen.toNat →
    s.tLen.toNat ≤ s.cfg.pmax → s.p.read (s.tLen.toNat - 1) = db0Byte ch n →
    (n.toNat = s.cfg.cmdQuery.toNat ∨ n.toNat = s.cfg.cmdStop.toNat) →
    exec .dec s = .next { s with
      mCmd := n.setWidth 8, mPos := 127, mAng := 127, mLock := 0, mRepos := 0,
      response := some { err := none, warn := decide (ch ≠ 0), data := ch.setWidth 8 } } ∧
    exec .deca s = .next { s with
      mCmd := n.setWidth 8,
      response := some { err := none, warn := decide (ch ≠ 0), data := ch.setWidth 8 } }

/-- R141 step 5, R145, R146: a telegram of 4 bytes whose DB0 carries GoTo; both forms give the same state. -/
def Obligations.DecGoTo : Prop :=
  ∀ (s : State) (ch n : Nibble), s.cfg.wf = true → s.tEtype = s.cfg.envVld → s.tLen = 4 →
    s.p.read 3 = db0Byte ch n → n.toNat = s.cfg.cmdGoTo.toNat → ∃ t,
    exec .dec s = .next t ∧ exec .deca s = .next t ∧
    t.mCmd = s.cfg.cmdGoTo ∧ t.mPos = s.p.read 0 ∧ t.mAng = s.p.read 1 ∧
    t.mLock.toNat = (s.p.read 2).toNat % 8 ∧ t.mRepos.toNat = (s.p.read 2).toNat / 16 % 8 ∧
    State.SameBut [.mCmd, .mPos, .mAng, .mLock, .mRepos] s t ∧
    t.response = some { err := none, warn := decide (ch ≠ 0), data := ch.setWidth 8 }

/-- R141 step 5, R145, R146: a telegram of 4 bytes whose DB0 carries Reply; DEC gives the repositioning mode its default,
DECA keeps it. -/
def Obligations.DecReply : Prop :=
  ∀ (s : State) (ch n : Nibble), s.cfg.wf = true → s.tEtype = s.cfg.envVld → s.tLen = 4 →
    s.p.read 3 = db0Byte ch n → n.toNat = s.cfg.cmdReply.toNat → ∃ t,
    exec .dec s = .next t ∧ exec .deca s = .next { t with mRepos := s.mRepos } ∧
    t.mCmd = s.cfg.cmdReply ∧ t.mPos = s.p.read 0 ∧ t.mAng = s.p.read 1 ∧
    t.mLock.toNat = (s.p.read 2).toNat % 8 ∧ t.mRepos = 0 ∧
    State.SameBut [.mCmd, .mPos, .mAng, .mLock, .mRepos] s t ∧
    t.response = some { err := none, warn := decide (ch ≠ 0), data := ch.setWidth 8 }

/-- R162: the errors of DEC and DECA in their order: the envelope type before the empty payload before the command; the
last two exclude each other. Nothing else changes. -/
def Obligations.DecoderErrorPriority : Prop :=
  ∀ (s : State) (i : Instr), (i = .dec ∨ i = .deca) → s.cfg.wf = true → s.tLen.toNat ≤ s.cfg.pmax →
    (s.tEtype ≠ s.cfg.envVld →
      exec i s = .next { s with response := some { err := some .envelopeMismatch, warn := false, data := 0 } }) ∧
    (s.tEtype = s.cfg.envVld → s.tLen = 0 →
      exec i s = .next { s with response := some { err := some .emptyPayload, warn := false, data := 0 } }) ∧
    (∀ ch n : Nibble, s.tEtype = s.cfg.envVld → 1 ≤ s.tLen.toNat →
      s.p.read (s.tLen.toNat - 1) = db0Byte ch n →
      ((n.toNat = s.cfg.cmdGoTo.toNat ∨ n.toNat = s.cfg.cmdReply.toNat) → s.tLen ≠ 4 →
        exec i s = .next { s with
          response := some { err := some .payloadLengthMismatch, warn := decide (ch ≠ 0), data := ch.setWidth 8 } }) ∧
      (n.toNat ≠ s.cfg.cmdQuery.toNat → n.toNat ≠ s.cfg.cmdStop.toNat → n.toNat ≠ s.cfg.cmdGoTo.toNat →
        n.toNat ≠ s.cfg.cmdReply.toNat →
        exec i s = .next { s with
          response := some { err := some .unknownCommand, warn := decide (ch ≠ 0), data := ch.setWidth 8 } }))

/-- R144: once DB0 is read the response carries the channel, on success and on failure alike; before that, no warning and
data 0. -/
def Obligations.DiagnosticAlwaysReported : Prop :=
  ∀ (s : State) (i : Instr), (i = .dec ∨ i = .deca) → s.Inv → ∃ t r, exec i s = .next t ∧ t.response = some r ∧
    (s.tEtype = s.cfg.envVld → 1 ≤ s.tLen.toNat →
      r.data = (channelNibble (s.p.read (s.tLen.toNat - 1))).setWidth 8 ∧
      r.warn = decide (channelNibble (s.p.read (s.tLen.toNat - 1)) ≠ 0)) ∧
    ((s.tEtype ≠ s.cfg.envVld ∨ s.tLen = 0) → r.data = 0 ∧ r.warn = false ∧ r.err ≠ none)

/-- R142, R150: what the decoders do not look at. Two blocks that differ only in payload bytes, with the same command
nibble in DB0 and, where the command has a second byte, the same position, angle, locking bits and (GoTo) repositioning
bits, get the same error and the same message; the channel, DB1 bits 3 and 7, and bits 6 to 4 of a Reply, are not looked
at. -/
def Obligations.DecodersReadOnlyTheirFields : Prop :=
  ∀ (s : State) (m : Memory) (i : Instr), (i = .dec ∨ i = .deca) → s.cfg.wf = true → s.tLen.toNat ≤ s.cfg.pmax →
    1 ≤ s.tLen.toNat →
    commandNibble (m.read (s.tLen.toNat - 1)) = commandNibble (s.p.read (s.tLen.toNat - 1)) →
    ((commandNibble (s.p.read (s.tLen.toNat - 1))).toNat = s.cfg.cmdGoTo.toNat ∨
        (commandNibble (s.p.read (s.tLen.toNat - 1))).toNat = s.cfg.cmdReply.toNat →
      m.read 0 = s.p.read 0 ∧ m.read 1 = s.p.read 1 ∧ (m.read 2).toNat % 8 = (s.p.read 2).toNat % 8) →
    ((commandNibble (s.p.read (s.tLen.toNat - 1))).toNat = s.cfg.cmdGoTo.toNat →
      (m.read 2).toNat / 16 % 8 = (s.p.read 2).toNat / 16 % 8) →
    ∃ t t', exec i s = .next t ∧ exec i { s with p := m } = .next t' ∧ t'.message = t.message ∧
      t'.response.map (·.err) = t.response.map (·.err)

/-- R146: DEC equals MNEW of any command followed by DECA, when DECA succeeds. -/
def Obligations.DecIsMnewThenDeca : Prop :=
  ∀ (s t u : State) (c : Byte), exec (.mnew c) s = .next t → exec .deca t = .next u → u.lastOk →
    exec .dec s = .next u

/-- R149, first half: ENC then DEC gives the message back (with the defaults where the payload does not carry a field),
ENC then DECA leaves the message as it was, for all four commands; no warning, data 0. -/
def Obligations.EncThenDecRoundTrip : Prop :=
  ∀ s : State, s.cfg.wf = true → s.mLock.toNat ≤ 7 → s.mRepos.toNat ≤ 7 →
    (s.mCmd = s.cfg.cmdStop ∨ s.mCmd = s.cfg.cmdQuery ∨ s.mCmd = s.cfg.cmdGoTo ∨ s.mCmd = s.cfg.cmdReply) →
    ∃ t u u', exec .enc s = .next t ∧ exec .dec t = .next u ∧ exec .deca t = .next u' ∧
      u.response = some { err := none, warn := false, data := 0 } ∧ u'.response = u.response ∧
      u'.message = s.message ∧
      ((s.mCmd = s.cfg.cmdStop ∨ s.mCmd = s.cfg.cmdQuery) → u.message = freshMessage s.mCmd) ∧
      (s.mCmd = s.cfg.cmdGoTo → u.message = s.message) ∧
      (s.mCmd = s.cfg.cmdReply → u.message = { s.message with repos := 0 })

/-- R149, second half: ENC after an accepted DEC succeeds, and reproduces the payload exactly if and only if the payload
has channel 0, DB1 bits 3 and 7 clear where there is a DB1 field, DB1 bits 6 to 4 clear when Reply, and length 1 when Stop
or Query. -/
def Obligations.DecThenEncReproduces : Prop :=
  ∀ s t : State, s.Inv → exec .dec s = .next t → t.lastOk → ∃ u, exec .enc t = .next u ∧ u.lastOk ∧
    ((u.tLen = s.tLen ∧ ∀ i, u.p.read i = s.p.read i) ↔
      (channelNibble (s.p.read (s.tLen.toNat - 1)) = 0 ∧
        ((t.mCmd = s.cfg.cmdGoTo ∨ t.mCmd = s.cfg.cmdReply) →
          (s.p.read 2).getLsbD 3 = false ∧ (s.p.read 2).getLsbD 7 = false) ∧
        (t.mCmd = s.cfg.cmdReply → (s.p.read 2).toNat / 16 % 8 = 0) ∧
        ((t.mCmd = s.cfg.cmdStop ∨ t.mCmd = s.cfg.cmdQuery) → s.tLen = 1)))

/-! The payload commands. -/

/-- DEC performs the payload command that DB0 decodes to: the model's reading of the payload rows as instructions (log
entry 7). -/
def Obligations.DecPerformsPayloadCommand : Prop :=
  ∀ (s : State) (i : Instr), s.cfg.wf = true → 1 ≤ s.tLen.toNat → s.tLen.toNat ≤ s.cfg.pmax →
    decode s.cfg (.payload (s.p.read (s.tLen.toNat - 1))) = .ok i → exec .dec s = exec i s

/-- R141 step 4: receiving a QueryPositionAndAngle or a Stop on a channel. -/
def Obligations.QueryAndStopReceived : Prop :=
  ∀ (s : State) (ch : Nibble), s.cfg.wf = true → s.tEtype = s.cfg.envVld → 1 ≤ s.tLen.toNat →
    exec (.queryPositionAndAngle ch) s = .next { s with
      mCmd := s.cfg.cmdQuery, mPos := 127, mAng := 127, mLock := 0, mRepos := 0,
      response := some { err := none, warn := decide (ch ≠ 0), data := ch.setWidth 8 } } ∧
    exec (.stop ch) s = .next { s with
      mCmd := s.cfg.cmdStop, mPos := 127, mAng := 127, mLock := 0, mRepos := 0,
      response := some { err := none, warn := decide (ch ≠ 0), data := ch.setWidth 8 } }

/-- R141 step 5: receiving a GoToPositionAndAngle on a channel, a payload of 4 bytes. -/
def Obligations.GoToReceived : Prop :=
  ∀ (s : State) (ch : Nibble), s.cfg.wf = true → s.tEtype = s.cfg.envVld → s.tLen = 4 → ∃ t,
    exec (.goToPositionAndAngle ch) s = .next t ∧
    t.mCmd = s.cfg.cmdGoTo ∧ t.mPos = s.p.read 0 ∧ t.mAng = s.p.read 1 ∧
    t.mLock.toNat = (s.p.read 2).toNat % 8 ∧ t.mRepos.toNat = (s.p.read 2).toNat / 16 % 8 ∧
    State.SameBut [.mCmd, .mPos, .mAng, .mLock, .mRepos] s t ∧
    t.response = some { err := none, warn := decide (ch ≠ 0), data := ch.setWidth 8 }

/-- R141 step 5: receiving a ReplyPositionAndAngle on a channel, a payload of 4 bytes. -/
def Obligations.ReplyReceived : Prop :=
  ∀ (s : State) (ch : Nibble), s.cfg.wf = true → s.tEtype = s.cfg.envVld → s.tLen = 4 → ∃ t,
    exec (.replyPositionAndAngle ch) s = .next t ∧
    t.mCmd = s.cfg.cmdReply ∧ t.mPos = s.p.read 0 ∧ t.mAng = s.p.read 1 ∧
    t.mLock.toNat = (s.p.read 2).toNat % 8 ∧ t.mRepos = 0 ∧
    State.SameBut [.mCmd, .mPos, .mAng, .mLock, .mRepos] s t ∧
    t.response = some { err := none, warn := decide (ch ≠ 0), data := ch.setWidth 8 }

/-- R143: a received SetParameters is UnknownCommand with the channel, whatever the length; nothing else changes. -/
def Obligations.SetParametersReceived : Prop :=
  ∀ (s : State) (ch : Nibble), s.cfg.wf = true → s.tEtype = s.cfg.envVld → 1 ≤ s.tLen.toNat →
    exec (.setParameters ch) s = .next { s with
      response := some { err := some .unknownCommand, warn := decide (ch ≠ 0), data := ch.setWidth 8 } }

/-! The machine. -/

/-- R64: every request word has an outcome in every state of a block; the reserved codes, the register indices 7 to 15,
a length above `PMAX` and a DB index of `T.LEN` or more are BadRequest and change nothing else. -/
def Obligations.EveryRequestHasAnOutcome : Prop :=
  ∀ (s : State), s.Inv →
    (∀ w : RequestWord, ∃ t r, exec (decodeRequest w) s = .next t ∧ t.response = some r) ∧
    (∀ (op : Nat) (a b : Nibble) (v : Byte),
      (op = 0x0 ∨ op = 0xE ∨ op = 0xF ∨ ((op = 0x7 ∨ op = 0x8) ∧ 7 ≤ a.toNat) ∨
        (op = 0x8 ∧ a = 6 ∧ s.cfg.pmax < v.toNat) ∨ ((op = 0x9 ∨ op = 0xA) ∧ s.tLen.toNat ≤ a.toNat)) →
      exec (decodeRequest (reqNumber op a b v)) s =
        .next { s with response := some { err := some .badRequest, warn := false, data := 0 } })

/-- The reserved operation codes select no operation: BadRequest, nothing else changes, in every state. -/
def Obligations.ReservedCodesAreBadRequests : Prop :=
  ∀ s : State,
    exec .reserved0 s =
      .next { s with response := some { err := some .badRequest, warn := false, data := 0 } } ∧
    exec .reservedE s =
      .next { s with response := some { err := some .badRequest, warn := false, data := 0 } } ∧
    exec .reservedF s =
      .next { s with response := some { err := some .badRequest, warn := false, data := 0 } }

/-- R164 (i): an operation that reports an error writes no register and no payload byte; the response is all that is
new. -/
def Obligations.ErrorsChangeNothing : Prop :=
  ∀ (i : Instr) (s t : State), exec i s = .next t → ¬ t.lastOk → t = { s with response := t.response }

/-- The access matrix of R23 and, for the payload commands, which R23 does not list, the model's own rows (log entry 7):
an instruction leaves every piece of state it may not write, the configuration and the moves still to come. DECA's cells
are coarser here than R23's, which give its writes per command: DecQueryAndStop, DecGoTo and DecReply say them exactly. -/
def Obligations.AccessMatrix : Prop :=
  ∀ (i : Instr) (s t : State), exec i s = .next t →
    (∀ x : Piece, mayWrite i x = false → x.Same s t) ∧ t.cfg = s.cfg ∧ t.inputs = s.inputs

/-- The response matrix of R161 and, for the payload commands, which R161 does not list, the model's own rows (log entry
7): an instruction reports only the errors listed for it, succeeds only where the matrix lets it, and warns only if it
decodes a payload. R65 lets only DEC and DECA warn; that a payload command warns as DEC does is the model's (log entry
7). -/
def Obligations.ResponseMatrix : Prop :=
  ∀ (i : Instr) (s t : State), s.cfg.wf = true → exec i s = .next t → ∃ r, t.response = some r ∧
    (∀ e, r.err = some e → mayReport i e = true) ∧ (r.err = none → maySucceed i = true) ∧
    (r.warn = true → i = .dec ∨ i = .deca ∨ i.command ≠ none)

/-- R11: of the operations only the five of the bit-field unit look at `BF` or write it: any other gives, from a block
with another `BF`, the same outcome with that `BF`. -/
def Obligations.ContainerIsTheBitFieldUnits : Prop :=
  ∀ (i : Instr) (s t : State) (x : Byte),
    (∀ a b v, i ≠ .bfz ∧ i ≠ .bfld v ∧ i ≠ .bfins a b v ∧ i ≠ .bfext a b ∧ i ≠ .bfraw) →
    exec i s = .next t → t.bf = s.bf ∧ exec i { s with bf := x } = .next { t with bf := x }

/-- R20, R165: no operation looks at the last response. What an operation does after any response, an error's among them,
is what it does after none: a failed request is as if it had never been issued. -/
def Obligations.ErrorsAreNotLatched : Prop :=
  (∀ (j : Instr) (s : State) (r : Option Response), exec j { s with response := r } = exec j s) ∧
  (∀ (i j : Instr) (s t : State), exec i s = .next t → ¬ t.lastOk → exec j t = exec j s)

/-- R40: reads change no state and two in a row return the same data. -/
def Obligations.ReadsHaveNoSideEffect : Prop :=
  ∀ (i : Instr) (s t : State), (i = .bfraw ∨ ∃ a b, i = .hrd a ∨ i = .getdb a ∨ i = .bfext a b) →
    exec i s = .next t → t = { s with response := t.response } ∧ exec i t = .next t

/-- R193: a step performs the next request of the host, decoded, in the state with that request taken off; with no move to
come nothing changes (the idle step is the model's: log entry 11). -/
def Obligations.StepRunsTheDecodedRequest : Prop :=
  ∀ s : State, s.cfg.wf = true →
    (∀ w rest, s.inputs = .request w :: rest → step s = exec (decodeRequest w) { s with inputs := rest }) ∧
    (s.inputs = [] → step s = .next s)

/-- R21: the state after reset, for every draw of the two unspecified registers; a reset step gives it from any state,
keeping the configuration. -/
def Obligations.ResetState : Prop :=
  (∀ (cfg : Cfg) (c e : Byte),
    let r := State.resetWith cfg c e
    r.bf = 0 ∧ r.mCmd = c ∧ r.mPos = 127 ∧ r.mAng = 127 ∧ r.mLock = 0 ∧ r.mRepos = 0 ∧ r.tEtype = e ∧ r.tLen = 0 ∧
    (∀ i, r.p.read i = 0) ∧ r.cfg = cfg) ∧
  (∀ (s : State) (c e : Byte) (rest : List Input), s.cfg.wf = true → s.inputs = .reset c e :: rest →
    step s = .next { State.resetWith s.cfg c e with inputs := rest }) ∧
  (∃ c e, State.reset = State.resetWith .doc c e)

/-- R6: a configuration is well-formed exactly when the five codes are pairwise distinct and in 0..15, `BF_W = 8` and
`5 ≤ PMAX ≤ 16`; a block with another configuration is refused. -/
def Obligations.IllFormedConfigurationRefused : Prop :=
  (∀ cfg : Cfg, cfg.wf = true ↔
    (∀ c d : Command, c ≠ d → cfg.code c ≠ cfg.code d) ∧ (∀ c : Command, (cfg.code c).toNat ≤ 15) ∧
    cfg.bfW = 8 ∧ 5 ≤ cfg.pmax ∧ cfg.pmax ≤ 16) ∧
  (∀ s : State, s.cfg.wf = false → step s = .refused .illFormedConfiguration)

/-- The invariant holds after reset, for every well-formed configuration and every draw. -/
def Obligations.ResetMeetsInvariant : Prop :=
  State.Inv State.reset ∧ ∀ (cfg : Cfg) (c e : Byte), cfg.wf = true → State.Inv (State.resetWith cfg c e)

/-- R16, R17: every step keeps the invariant: a well-formed configuration, `T.LEN ≤ PMAX`, the canonical form of the
payload buffer, and a payload buffer that reads 0 from wire position `T.LEN` on. -/
def Obligations.StepKeepsInvariant : Prop :=
  ∀ s t : State, s.Inv → step s = .next t → t.Inv ∧ ∀ i, t.tLen.toNat ≤ i → t.p.read i = 0

/-- R174: no operation is ever stuck. From every state of a block every run of any length, whatever host and platform do,
ends in a next state, never in a fault or a refusal. -/
def Obligations.EveryRunGoesOn : Prop :=
  ∀ (s : State) (n : Nat), s.Inv → ∃ t : State, Host.Core.run core n s = .next t ∧ t.Inv

/-- R13, R14: which message registers mean something under each command, and which of its two meanings `M.LOCK` has. -/
def Obligations.MeaningOfTheMessageRegisters : Prop :=
  ∀ (cfg : Cfg) (m : Message), cfg.wf = true →
    (∀ c, (c = .query ∨ c = .stop) → m.cmd = cfg.code c →
      (∀ r, meaningful cfg m.cmd r = true ↔ r = .mCmd) ∧ lockReading cfg m = none) ∧
    (m.cmd = cfg.cmdGoTo →
      (∀ r, meaningful cfg m.cmd r = true ↔ r = .mCmd ∨ r = .mPos ∨ r = .mAng ∨ r = .mLock ∨ r = .mRepos) ∧
      lockReading cfg m = some (.instruction m.lock)) ∧
    (m.cmd = cfg.cmdReply →
      (∀ r, meaningful cfg m.cmd r = true ↔ r = .mCmd ∨ r = .mPos ∨ r = .mAng ∨ r = .mLock) ∧
      lockReading cfg m = some (.status m.lock)) ∧
    ((∀ c, c ≠ .setParameters → m.cmd ≠ cfg.code c) →
      (∀ r, meaningful cfg m.cmd r = false) ∧ lockReading cfg m = none)
end

