-- ==== Sys2Proof/Laws/BitField.lean ====
section
/-! SUPPORT. The bit-field functions bit by bit: when they fail, and what they give when they do not (R80, R81). -/

namespace Sys2Proof.Machine

theorem getLsbD_mask (w k : Nat) : (mask w).getLsbD k = (decide (k < 8) && decide (k < w)) := by
  unfold mask
  rw [BitVec.getLsbD_ofNat, Nat.testBit_two_pow_sub_one]

/-- A value that fits a width has no bit at or above it. -/
theorem getLsbD_of_lt (x : Byte) (w k : Nat) (hx : x.toNat < 2 ^ w) (hk : w ≤ k) : x.getLsbD k = false := by
  rw [BitVec.getLsbD, Nat.testBit_lt_two_pow (Nat.lt_of_lt_of_le hx (Nat.pow_le_pow_right (by omega) hk))]

theorem ins_out_of_byte (c : Byte) (o w : Nat) (x : Byte) (h : 8 < o + w) : ins c o w x = .error .fieldRangeError := by
  unfold ins; rw [if_pos (by omega)]

theorem ins_too_big (c : Byte) (o w : Nat) (x : Byte) (h : 2 ^ w ≤ x.toNat) : ins c o w x = .error .fieldRangeError := by
  unfold ins; rw [if_pos h, ite_self]

/-- The one way `ins` succeeds. -/
theorem ins_fits (c : Byte) (o w : Nat) (x : Byte) (ho : o + w ≤ 8) (hx : x.toNat < 2 ^ w) :
    ins c o w x = .ok ((c &&& ~~~(mask w <<< o)) ||| (x <<< o)) := by
  unfold ins; rw [if_neg (by omega), if_neg (by omega)]

/-- Everything `ins` can do: it gives a byte exactly when the field lies in the byte and the value fits, and fails with
FieldRangeError otherwise. -/
theorem ins_cases (c : Byte) (o w : Nat) (x : Byte) :
    (o + w ≤ 8 ∧ x.toNat < 2 ^ w ∧ ins c o w x = .ok ((c &&& ~~~(mask w <<< o)) ||| (x <<< o))) ∨
    ((8 < o + w ∨ 2 ^ w ≤ x.toNat) ∧ ins c o w x = .error .fieldRangeError) := by
  by_cases ho : o + w ≤ 8
  · by_cases hx : x.toNat < 2 ^ w
    · exact Or.inl ⟨ho, hx, ins_fits c o w x ho hx⟩
    · exact Or.inr ⟨Or.inr (by omega), ins_too_big c o w x (by omega)⟩
  · exact Or.inr ⟨Or.inl (by omega), ins_out_of_byte c o w x (by omega)⟩

/-- The bits of an inserted byte: the field's from the value, the others from the container. -/
theorem getLsbD_inserted (c : Byte) (o w : Nat) (x : Byte) (ho : o + w ≤ 8) (hx : x.toNat < 2 ^ w) (k : Nat) :
    ((c &&& ~~~(mask w <<< o)) ||| (x <<< o)).getLsbD k =
      if o ≤ k ∧ k < o + w then x.getLsbD (k - o) else c.getLsbD k := by
  rw [BitVec.getLsbD_or, BitVec.getLsbD_and, BitVec.getLsbD_not, BitVec.getLsbD_shiftLeft, BitVec.getLsbD_shiftLeft,
    getLsbD_mask]
  by_cases h8 : k < 8
  · by_cases h1 : o ≤ k
    · by_cases h2 : k < o + w
      · rw [if_pos ⟨h1, h2⟩]
        have h3 : k - o < w := by omega
        have h4 : k - o < 8 := by omega
        have h5 : ¬ k < o := by omega
        simp [h8, h3, h4, h5]
      · rw [if_neg (by omega)]
        have h3 : ¬ k - o < w := by omega
        have h4 : ¬ k < o := by omega
        simp [h8, h3, h4, getLsbD_of_lt x w (k - o) hx (by omega)]
    · rw [if_neg (by omega)]
      have h4 : k < o := by omega
      simp [h8, h4]
  · have hn : ¬ (o ≤ k ∧ k < o + w) := by omega
    have hc : c.getLsbD k = false := BitVec.getLsbD_of_ge c k (by omega)
    rw [if_neg hn]
    simp [h8, hc]

theorem ext_out_of_byte (c : Byte) (o w : Nat) (h : 8 < o + w) : ext c o w = .error .fieldRangeError := by
  unfold ext; rw [if_pos (by omega)]

/-- The one way `ext` succeeds. -/
theorem ext_fits (c : Byte) (o w : Nat) (h : o + w ≤ 8) : ext c o w = .ok ((c >>> o) &&& mask w) := by
  unfold ext; rw [if_neg (by omega)]

/-- The bits of an extracted field. -/
theorem getLsbD_extracted (c : Byte) (o w : Nat) (h : o + w ≤ 8) (k : Nat) :
    ((c >>> o) &&& mask w).getLsbD k = (decide (k < w) && c.getLsbD (o + k)) := by
  rw [BitVec.getLsbD_and, BitVec.getLsbD_ushiftRight, getLsbD_mask]
  by_cases h1 : k < w
  · have h2 : k < 8 := by omega
    simp [h1, h2]
  · simp [h1]

/-- Two bytes with the same eight bits are equal. -/
theorem byte_ext (x y : Byte) (h : ∀ k < 8, x.getLsbD k = y.getLsbD k) : x = y := by
  apply BitVec.eq_of_getLsbD_eq
  intro k hk
  exact h k hk

end Sys2Proof.Machine
end

