-- ==== Sys2Proof/Laws/Decode.lean ====
section
/-! SUPPORT. The fields of request words and of DB0 read back what they were made of, and the command codes of a
well-formed configuration. -/

namespace Sys2Proof

theorem getLsbD_requestWord (op a b : Nibble) (v : Byte) (i : Nat) :
    (requestWord op a b v).getLsbD i =
      if i < 8 then v.getLsbD i else if i < 12 then b.getLsbD (i - 8) else if i < 16 then a.getLsbD (i - 12)
      else op.getLsbD (i - 16) := by
  unfold requestWord
  rw [BitVec.getLsbD_append, BitVec.getLsbD_append, BitVec.getLsbD_append]
  simp only [Nat.sub_sub]
  by_cases h1 : i < 8 <;> by_cases h2 : i < 12 <;> by_cases h3 : i < 16 <;> simp [h1, h2, h3] <;> grind

@[simp] theorem reqOp_requestWord (op a b : Nibble) (v : Byte) : reqOp (requestWord op a b v) = op := by
  unfold reqOp; ext i hi; simp [getLsbD_requestWord]; grind

@[simp] theorem reqA_requestWord (op a b : Nibble) (v : Byte) : reqA (requestWord op a b v) = a := by
  unfold reqA; ext i hi; simp [getLsbD_requestWord]; grind

@[simp] theorem reqB_requestWord (op a b : Nibble) (v : Byte) : reqB (requestWord op a b v) = b := by
  unfold reqB; ext i hi; simp [getLsbD_requestWord]; grind

@[simp] theorem reqV_requestWord (op a b : Nibble) (v : Byte) : reqV (requestWord op a b v) = v := by
  unfold reqV; ext i hi; simp [getLsbD_requestWord]; grind

theorem requestWord_toNat (op a b : Nibble) (v : Byte) :
    (requestWord op a b v).toNat = op.toNat * 2 ^ 16 + a.toNat * 2 ^ 12 + b.toNat * 2 ^ 8 + v.toNat := by
  unfold requestWord
  rw [BitVec.toNat_append, BitVec.toNat_append, BitVec.toNat_append,
    ← Nat.shiftLeft_add_eq_or_of_lt b.isLt, ← Nat.shiftLeft_add_eq_or_of_lt a.isLt,
    ← Nat.shiftLeft_add_eq_or_of_lt v.isLt]
  simp only [Nat.shiftLeft_eq]
  omega

/-- The word written as a number has the fields it names. -/
theorem reqNumber_eq (op : Nat) (h : op < 16) (a b : Nibble) (v : Byte) :
    Machine.reqNumber op a b v = requestWord (BitVec.ofNat 4 op) a b v := by
  apply BitVec.eq_of_toNat_eq
  rw [requestWord_toNat]
  unfold Machine.reqNumber
  have hop := h; have ha := a.isLt; have hb := b.isLt; have hv := v.isLt
  simp only [BitVec.toNat_ofNat]
  omega

@[simp] theorem commandNibble_db0Byte (ch cmd : Nibble) : commandNibble (db0Byte ch cmd) = cmd := by
  revert ch cmd; decide

@[simp] theorem channelNibble_db0Byte (ch cmd : Nibble) : channelNibble (db0Byte ch cmd) = ch := by
  revert ch cmd; decide

theorem db0Byte_nibbles (b : Byte) : db0Byte (channelNibble b) (commandNibble b) = b := by
  revert b; decide

theorem setWidth_setWidth_of_lt (b : Byte) (h : b.toNat < 16) : (b.setWidth 4).setWidth 8 = b := by
  have hb := h
  apply BitVec.eq_of_toNat_eq
  simp only [BitVec.toNat_setWidth]
  omega

/-- What a well-formed configuration is (R6). -/
theorem Cfg.wf_iff (cfg : Cfg) : cfg.wf = true ↔
    allDistinct cfg.codes = true ∧ (∀ c, (cfg.code c).toNat < 16) ∧ cfg.bfW = 8 ∧ 5 ≤ cfg.pmax ∧ cfg.pmax ≤ 16 := by
  have h : cfg.codes.all (fun c => decide (c.toNat < 16)) = true ↔ ∀ c, (cfg.code c).toNat < 16 := by
    simp only [Cfg.codes, List.all_cons, List.all_nil, Bool.and_true, Bool.and_eq_true, decide_eq_true_eq]
    constructor
    · rintro ⟨h1, h2, h3, h4, h5⟩ c
      cases c <;> assumption
    · intro h
      exact ⟨h .query, h .stop, h .goTo, h .reply, h .setParameters⟩
  simp only [Cfg.wf, Bool.and_eq_true, decide_eq_true_eq, h, and_assoc]

theorem Cfg.code_lt {cfg : Cfg} (h : cfg.wf = true) (c : Command) : (cfg.code c).toNat < 16 :=
  ((Cfg.wf_iff cfg).mp h).2.1 c

theorem Cfg.pmax_ge {cfg : Cfg} (h : cfg.wf = true) : 5 ≤ cfg.pmax := ((Cfg.wf_iff cfg).mp h).2.2.2.1

theorem Cfg.pmax_le {cfg : Cfg} (h : cfg.wf = true) : cfg.pmax ≤ 16 := ((Cfg.wf_iff cfg).mp h).2.2.2.2

/-- The codes of a well-formed configuration tell the commands apart. -/
theorem Cfg.code_injective {cfg : Cfg} (h : cfg.wf = true) (c d : Command) (hcd : cfg.code c = cfg.code d) : c = d := by
  have := ((Cfg.wf_iff cfg).mp h).1
  simp [allDistinct, Cfg.codes] at this
  cases c <;> cases d <;> simp_all [Cfg.code]

/-- A classified code is that command's. -/
theorem classify_some {cfg : Cfg} {b : Byte} {c : Command} (h : classify cfg b = some c) : b = cfg.code c := by
  unfold classify at h
  split_ifs at h <;> simp_all [Cfg.code] <;> subst h <;> simp_all

/-- A byte with no class is no command's code. -/
theorem classify_none {cfg : Cfg} {b : Byte} (h : classify cfg b = none) (c : Command) : b ≠ cfg.code c := by
  unfold classify at h
  split_ifs at h
  cases c <;> simpa [Cfg.code]

/-- Under a well-formed configuration a byte is classified as a command exactly when it is that command's code. -/
theorem classify_iff {cfg : Cfg} (h : cfg.wf = true) (b : Byte) (c : Command) :
    classify cfg b = some c ↔ b = cfg.code c := by
  refine ⟨classify_some, fun hb => ?_⟩
  cases hc : classify cfg b with
  | none => exact absurd hb (classify_none hc c)
  | some d => exact congrArg some (Cfg.code_injective h d c ((classify_some hc).symm.trans hb))

theorem classify_code {cfg : Cfg} (h : cfg.wf = true) (c : Command) : classify cfg (cfg.code c) = some c :=
  (classify_iff h _ c).mpr rfl

theorem classify_eq_none_iff (cfg : Cfg) (b : Byte) :
    classify cfg b = none ↔ ∀ c, b ≠ cfg.code c := by
  refine ⟨classify_none, fun hb => ?_⟩
  cases hc : classify cfg b with
  | none => rfl
  | some d => exact absurd (classify_some hc) (hb d)

/-- The byte DB0 of a payload command has its channel and its code. -/
theorem channelNibble_encodePayload (cfg : Cfg) (c : Command) (ch : Nibble) :
    channelNibble (encodePayload cfg c ch) = ch := by simp [encodePayload]

theorem commandNibble_encodePayload {cfg : Cfg} (h : cfg.wf = true) (c : Command) (ch : Nibble) :
    (commandNibble (encodePayload cfg c ch)).setWidth 8 = cfg.code c := by
  simp only [encodePayload, commandNibble_db0Byte]
  exact setWidth_setWidth_of_lt _ (Cfg.code_lt h c)

end Sys2Proof
end

