-- ==== Sys2Proof/Laws/State.lean ====
section
/-! SUPPORT. One lemma per field per update of the state, so that no proof unfolds a record update. -/

namespace Sys2Proof.Machine

@[simp] theorem State.respond_bf (s : State) (r : Response) : (s.respond r).bf = s.bf := rfl
@[simp] theorem State.respond_mCmd (s : State) (r : Response) : (s.respond r).mCmd = s.mCmd := rfl
@[simp] theorem State.respond_mPos (s : State) (r : Response) : (s.respond r).mPos = s.mPos := rfl
@[simp] theorem State.respond_mAng (s : State) (r : Response) : (s.respond r).mAng = s.mAng := rfl
@[simp] theorem State.respond_mLock (s : State) (r : Response) : (s.respond r).mLock = s.mLock := rfl
@[simp] theorem State.respond_mRepos (s : State) (r : Response) : (s.respond r).mRepos = s.mRepos := rfl
@[simp] theorem State.respond_tEtype (s : State) (r : Response) : (s.respond r).tEtype = s.tEtype := rfl
@[simp] theorem State.respond_tLen (s : State) (r : Response) : (s.respond r).tLen = s.tLen := rfl
@[simp] theorem State.respond_p (s : State) (r : Response) : (s.respond r).p = s.p := rfl
@[simp] theorem State.respond_cfg (s : State) (r : Response) : (s.respond r).cfg = s.cfg := rfl
@[simp] theorem State.respond_inputs (s : State) (r : Response) : (s.respond r).inputs = s.inputs := rfl
@[simp] theorem State.respond_response (s : State) (r : Response) : (s.respond r).response = some r := rfl

@[simp] theorem State.allocate_bf (s : State) (len : Byte) : (s.allocate len).bf = s.bf := rfl
@[simp] theorem State.allocate_mCmd (s : State) (len : Byte) : (s.allocate len).mCmd = s.mCmd := rfl
@[simp] theorem State.allocate_mPos (s : State) (len : Byte) : (s.allocate len).mPos = s.mPos := rfl
@[simp] theorem State.allocate_mAng (s : State) (len : Byte) : (s.allocate len).mAng = s.mAng := rfl
@[simp] theorem State.allocate_mLock (s : State) (len : Byte) : (s.allocate len).mLock = s.mLock := rfl
@[simp] theorem State.allocate_mRepos (s : State) (len : Byte) : (s.allocate len).mRepos = s.mRepos := rfl
@[simp] theorem State.allocate_tEtype (s : State) (len : Byte) : (s.allocate len).tEtype = s.tEtype := rfl
@[simp] theorem State.allocate_tLen (s : State) (len : Byte) : (s.allocate len).tLen = len := rfl
@[simp] theorem State.allocate_p (s : State) (len : Byte) : (s.allocate len).p = [] := rfl
@[simp] theorem State.allocate_cfg (s : State) (len : Byte) : (s.allocate len).cfg = s.cfg := rfl
@[simp] theorem State.allocate_inputs (s : State) (len : Byte) : (s.allocate len).inputs = s.inputs := rfl
@[simp] theorem State.allocate_response (s : State) (len : Byte) : (s.allocate len).response = s.response := rfl

@[simp] theorem State.setMessage_bf (s : State) (m : Message) : (s.setMessage m).bf = s.bf := rfl
@[simp] theorem State.setMessage_mCmd (s : State) (m : Message) : (s.setMessage m).mCmd = m.cmd := rfl
@[simp] theorem State.setMessage_mPos (s : State) (m : Message) : (s.setMessage m).mPos = m.pos := rfl
@[simp] theorem State.setMessage_mAng (s : State) (m : Message) : (s.setMessage m).mAng = m.ang := rfl
@[simp] theorem State.setMessage_mLock (s : State) (m : Message) : (s.setMessage m).mLock = m.lock := rfl
@[simp] theorem State.setMessage_mRepos (s : State) (m : Message) : (s.setMessage m).mRepos = m.repos := rfl
@[simp] theorem State.setMessage_tEtype (s : State) (m : Message) : (s.setMessage m).tEtype = s.tEtype := rfl
@[simp] theorem State.setMessage_tLen (s : State) (m : Message) : (s.setMessage m).tLen = s.tLen := rfl
@[simp] theorem State.setMessage_p (s : State) (m : Message) : (s.setMessage m).p = s.p := rfl
@[simp] theorem State.setMessage_cfg (s : State) (m : Message) : (s.setMessage m).cfg = s.cfg := rfl
@[simp] theorem State.setMessage_inputs (s : State) (m : Message) : (s.setMessage m).inputs = s.inputs := rfl
@[simp] theorem State.setMessage_response (s : State) (m : Message) : (s.setMessage m).response = s.response := rfl

@[simp] theorem State.resetWith_bf (cfg : Cfg) (cmd etype : Byte) : (State.resetWith cfg cmd etype).bf = 0 := rfl
@[simp] theorem State.resetWith_mCmd (cfg : Cfg) (cmd etype : Byte) : (State.resetWith cfg cmd etype).mCmd = cmd := rfl
@[simp] theorem State.resetWith_mPos (cfg : Cfg) (cmd etype : Byte) : (State.resetWith cfg cmd etype).mPos = 127 := rfl
@[simp] theorem State.resetWith_mAng (cfg : Cfg) (cmd etype : Byte) : (State.resetWith cfg cmd etype).mAng = 127 := rfl
@[simp] theorem State.resetWith_mLock (cfg : Cfg) (cmd etype : Byte) : (State.resetWith cfg cmd etype).mLock = 0 := rfl
@[simp] theorem State.resetWith_mRepos (cfg : Cfg) (cmd etype : Byte) : (State.resetWith cfg cmd etype).mRepos = 0 := rfl
@[simp] theorem State.resetWith_tEtype (cfg : Cfg) (cmd etype : Byte) : (State.resetWith cfg cmd etype).tEtype = etype := rfl
@[simp] theorem State.resetWith_tLen (cfg : Cfg) (cmd etype : Byte) : (State.resetWith cfg cmd etype).tLen = 0 := rfl
@[simp] theorem State.resetWith_p (cfg : Cfg) (cmd etype : Byte) : (State.resetWith cfg cmd etype).p = [] := rfl
@[simp] theorem State.resetWith_cfg (cfg : Cfg) (cmd etype : Byte) : (State.resetWith cfg cmd etype).cfg = cfg := rfl
@[simp] theorem State.resetWith_inputs (cfg : Cfg) (cmd etype : Byte) : (State.resetWith cfg cmd etype).inputs = [] := rfl
@[simp] theorem State.resetWith_response (cfg : Cfg) (cmd etype : Byte) : (State.resetWith cfg cmd etype).response = none := rfl

@[simp] theorem State.respond_respond (s : State) (r r' : Response) : (s.respond r).respond r' = s.respond r' := rfl

@[simp] theorem State.setMessage_setMessage (s : State) (m m' : Message) :
    (s.setMessage m).setMessage m' = s.setMessage m' := rfl

@[simp] theorem State.setMessage_message (s : State) : s.setMessage s.message = s := rfl

@[simp] theorem State.message_setMessage (s : State) (m : Message) : (s.setMessage m).message = m := rfl

@[simp] theorem State.message_respond (s : State) (r : Response) : (s.respond r).message = s.message := rfl

@[simp] theorem State.message_allocate (s : State) (len : Byte) : (s.allocate len).message = s.message := rfl

@[simp] theorem State.message_cmd (s : State) : s.message.cmd = s.mCmd := rfl
@[simp] theorem State.message_pos (s : State) : s.message.pos = s.mPos := rfl
@[simp] theorem State.message_ang (s : State) : s.message.ang = s.mAng := rfl
@[simp] theorem State.message_lock (s : State) : s.message.lock = s.mLock := rfl
@[simp] theorem State.message_repos (s : State) : s.message.repos = s.mRepos := rfl

/-- A message write and a response are independent of each other. -/
theorem State.respond_setMessage (s : State) (m : Message) (r : Response) :
    (s.respond r).setMessage m = (s.setMessage m).respond r := rfl

end Sys2Proof.Machine
end

