-- ==== Sys2Proof/Laws/Memory.lean ====
section
/-! SUPPORT. The laws of the payload memory: read after write, the canonical form and the bound on addresses kept by every
operation, and equality of canonical memories that read alike. -/

namespace Sys2Proof.Machine

@[simp] theorem Memory.read_nil (i : Nat) : Memory.read [] i = 0 := rfl

@[simp] theorem Memory.wf_nil : Memory.wf [] = true := rfl

theorem Memory.read_cell_append (i j : Nat) (v : Byte) (m : Memory) (h : m.read i = 0 ∨ v ≠ 0) :
    Memory.read (Memory.cell i v ++ m) j = if j = i then v else m.read j := by
  unfold Memory.cell
  by_cases hv : v = 0
  · subst hv
    rcases h with h | h
    · by_cases hj : j = i
      · subst hj; simpa using h
      · simp [hj]
    · exact absurd rfl h
  · rw [if_neg hv]; rfl

/-- Bytes below the first address of a rising list read 0. -/
theorem Memory.read_of_lt (m : Memory) (lo i : Nat) (h : Memory.risingFrom lo m = true) (hi : i < lo) : m.read i = 0 := by
  induction m generalizing lo with
  | nil => rfl
  | cons c rest ih =>
    obtain ⟨j, w⟩ := c
    simp only [Memory.risingFrom, Bool.and_eq_true, decide_eq_true_eq] at h
    obtain ⟨⟨hj, -⟩, hr⟩ := h
    have hij : i ≠ j := by omega
    simp only [Memory.read, hij, if_false]
    exact ih (j + 1) hr (by omega)

theorem Memory.risingFrom_mono (m : Memory) (lo lo' : Nat) (hle : lo' ≤ lo) (h : Memory.risingFrom lo m = true) :
    Memory.risingFrom lo' m = true := by
  cases m with
  | nil => rfl
  | cons c rest =>
    obtain ⟨j, w⟩ := c
    simp only [Memory.risingFrom, Bool.and_eq_true, decide_eq_true_eq] at h ⊢
    exact ⟨⟨by omega, h.1.2⟩, h.2⟩

/-- A write reads back at its address and nowhere else. -/
theorem Memory.read_write_from (m : Memory) (lo i j : Nat) (v : Byte) (h : Memory.risingFrom lo m = true) :
    (m.write i v).read j = if j = i then v else m.read j := by
  induction m generalizing lo with
  | nil =>
    have := Memory.read_cell_append i j v [] (Or.inl rfl)
    simpa [Memory.write] using this
  | cons c rest ih =>
    obtain ⟨k, w⟩ := c
    simp only [Memory.risingFrom, Bool.and_eq_true, decide_eq_true_eq] at h
    obtain ⟨⟨-, -⟩, hr⟩ := h
    unfold Memory.write
    by_cases h1 : i < k
    · rw [if_pos h1]
      refine Memory.read_cell_append i j v _ (Or.inl ?_)
      have hik : i ≠ k := by omega
      simp only [Memory.read, hik, if_false]
      exact Memory.read_of_lt rest (k + 1) i hr (by omega)
    · rw [if_neg h1]
      by_cases h2 : i = k
      · subst h2
        rw [if_pos rfl, Memory.read_cell_append i j v rest (Or.inl (Memory.read_of_lt rest (i + 1) i hr (by omega)))]
        by_cases h3 : j = i <;> simp [Memory.read, h3]
      · rw [if_neg h2]
        by_cases h3 : j = k
        · subst h3
          have : j ≠ i := fun e => h2 e.symm
          simp [Memory.read, this]
        · simp only [Memory.read, h3, if_false]
          exact ih (k + 1) hr

theorem Memory.read_write (m : Memory) (i j : Nat) (v : Byte) (h : m.wf = true) :
    (m.write i v).read j = if j = i then v else m.read j := Memory.read_write_from m 0 i j v h

theorem Memory.cell_append_rising (i lo : Nat) (v : Byte) (m : Memory) (hi : lo ≤ i)
    (h : Memory.risingFrom (i + 1) m = true) : Memory.risingFrom lo (Memory.cell i v ++ m) = true := by
  unfold Memory.cell
  by_cases hv : v = 0
  · simpa [hv] using Memory.risingFrom_mono m (i + 1) lo (by omega) h
  · rw [if_neg hv]
    simp only [List.cons_append, List.nil_append, Memory.risingFrom, Bool.and_eq_true, decide_eq_true_eq]
    exact ⟨⟨hi, hv⟩, h⟩

theorem Memory.write_rising (m : Memory) (lo i : Nat) (v : Byte) (hi : lo ≤ i) (h : Memory.risingFrom lo m = true) :
    Memory.risingFrom lo (m.write i v) = true := by
  induction m generalizing lo with
  | nil => simpa [Memory.write] using Memory.cell_append_rising i lo v [] hi rfl
  | cons c rest ih =>
    obtain ⟨k, w⟩ := c
    simp only [Memory.risingFrom, Bool.and_eq_true, decide_eq_true_eq] at h
    obtain ⟨⟨hk, hw⟩, hr⟩ := h
    unfold Memory.write
    by_cases h1 : i < k
    · rw [if_pos h1]
      refine Memory.cell_append_rising i lo v _ hi ?_
      simp only [Memory.risingFrom, Bool.and_eq_true, decide_eq_true_eq]
      exact ⟨⟨by omega, hw⟩, hr⟩
    · rw [if_neg h1]
      by_cases h2 : i = k
      · subst h2
        rw [if_pos rfl]
        exact Memory.cell_append_rising i lo v rest hi hr
      · rw [if_neg h2]
        simp only [Memory.risingFrom, Bool.and_eq_true, decide_eq_true_eq]
        exact ⟨⟨hk, hw⟩, ih (k + 1) (by omega) hr⟩

/-- A write keeps the canonical form. -/
theorem Memory.write_wf (m : Memory) (i : Nat) (v : Byte) (h : m.wf = true) : (m.write i v).wf = true :=
  Memory.write_rising m 0 i v (Nat.zero_le i) h

/-- A write below a bound keeps every address below the bound. -/
theorem Memory.write_bounded (m : Memory) (i n : Nat) (v : Byte) (hi : i < n)
    (h : m.all (fun c => decide (c.1 < n)) = true) : (m.write i v).all (fun c => decide (c.1 < n)) = true := by
  have hc : (Memory.cell i v).all (fun c => decide (c.1 < n)) = true := by
    unfold Memory.cell; split <;> simp [hi]
  induction m with
  | nil => simpa [Memory.write] using hc
  | cons c rest ih =>
    obtain ⟨k, w⟩ := c
    have hk : k < n := by simpa using (List.all_eq_true.mp h (k, w) (by simp))
    have hr : rest.all (fun c => decide (c.1 < n)) = true := by
      simp only [List.all_cons, Bool.and_eq_true] at h; exact h.2
    unfold Memory.write
    by_cases h1 : i < k
    · rw [if_pos h1]; simp only [List.all_append, List.all_cons, hc, hr, Bool.and_true, Bool.true_and]; simpa using hk
    · rw [if_neg h1]
      by_cases h2 : i = k
      · rw [if_pos h2]; simp only [List.all_append, hc, hr, Bool.and_self]
      · rw [if_neg h2]; simp only [List.all_cons, ih hr, Bool.and_true]; simpa using hk

/-- Bytes at or above a bound on the addresses read 0. -/
theorem Memory.read_of_bounded (m : Memory) (n i : Nat) (hi : n ≤ i) (h : m.all (fun c => decide (c.1 < n)) = true) :
    m.read i = 0 := by
  induction m with
  | nil => rfl
  | cons c rest ih =>
    obtain ⟨k, w⟩ := c
    simp only [List.all_cons, Bool.and_eq_true, decide_eq_true_eq] at h
    have : i ≠ k := by omega
    simp only [Memory.read, this, if_false]
    exact ih h.2

theorem Memory.ext_from (m m' : Memory) (lo lo' : Nat) (h : Memory.risingFrom lo m = true)
    (h' : Memory.risingFrom lo' m' = true) (hr : ∀ i, m.read i = m'.read i) : m = m' := by
  induction m generalizing m' lo lo' with
  | nil =>
    cases m' with
    | nil => rfl
    | cons c rest =>
      obtain ⟨k, w⟩ := c
      simp only [Memory.risingFrom, Bool.and_eq_true, decide_eq_true_eq] at h'
      have := hr k
      simp only [Memory.read, if_true] at this
      exact absurd this.symm h'.1.2
  | cons c rest ih =>
    obtain ⟨j, w⟩ := c
    simp only [Memory.risingFrom, Bool.and_eq_true, decide_eq_true_eq] at h
    cases m' with
    | nil =>
      have := hr j
      simp only [Memory.read, if_true] at this
      exact absurd this h.1.2
    | cons c' rest' =>
      obtain ⟨k, w'⟩ := c'
      simp only [Memory.risingFrom, Bool.and_eq_true, decide_eq_true_eq] at h'
      have hjk : j = k := by
        rcases Nat.lt_trichotomy j k with hlt | heq | hgt
        · have := hr j
          have hne : j ≠ k := by omega
          simp only [Memory.read, if_true, hne, if_false, Memory.read_of_lt rest' (k + 1) j h'.2 (by omega)] at this
          exact absurd this h.1.2
        · exact heq
        · have := hr k
          have hne : k ≠ j := by omega
          simp only [Memory.read, if_true, hne, if_false, Memory.read_of_lt rest (j + 1) k h.2 (by omega)] at this
          exact absurd this.symm h'.1.2
      subst hjk
      have hw : w = w' := by simpa [Memory.read] using hr j
      subst hw
      have : rest = rest' := by
        refine ih rest' (j + 1) (j + 1) h.2 h'.2 fun i => ?_
        by_cases hi : i = j
        · subst hi
          rw [Memory.read_of_lt rest (i + 1) i h.2 (by omega), Memory.read_of_lt rest' (i + 1) i h'.2 (by omega)]
        · have := hr i
          simpa [Memory.read, hi] using this
      rw [this]

/-- Canonical memories that read alike at every address are equal. -/
theorem Memory.ext (m m' : Memory) (h : m.wf = true) (h' : m'.wf = true) (hr : ∀ i, m.read i = m'.read i) : m = m' :=
  Memory.ext_from m m' 0 0 h h' hr

/-- In the canonical form, bytes that read 0 from a bound on leave no cell at or above it. -/
theorem Memory.bounded_of_read (m : Memory) (n : Nat) (hw : m.wf = true) (h : ∀ i, n ≤ i → m.read i = 0) :
    m.all (fun c => decide (c.1 < n)) = true := by
  suffices H : ∀ (m : Memory) (lo : Nat), Memory.risingFrom lo m = true → (∀ i, n ≤ i → m.read i = 0) →
      m.all (fun c => decide (c.1 < n)) = true from H m 0 hw h
  intro m
  induction m with
  | nil => intro _ _ _; rfl
  | cons c rest ih =>
    obtain ⟨j, w⟩ := c
    intro lo hr hz
    simp only [Memory.risingFrom, Bool.and_eq_true, decide_eq_true_eq] at hr
    obtain ⟨⟨-, hw0⟩, hrest⟩ := hr
    have hj : j < n := by
      rcases Nat.lt_or_ge j n with hj | hj
      · exact hj
      · have := hz j hj
        rw [Memory.read, if_pos rfl] at this
        exact absurd this hw0
    have hall := ih (j + 1) hrest fun i hi => by
      have := hz i hi
      rw [Memory.read, if_neg (by omega)] at this
      exact this
    simp only [List.all_cons, hj, hall, decide_true, Bool.and_self]

end Sys2Proof.Machine
end

