-- ==== Sys2Proof/Laws/Ops.lean ====
section
/-! SUPPORT. For each shared operation, once, everything it can do. -/

namespace Sys2Proof.Machine

@[simp] theorem succeed_eq (d : Byte) (s : State) : succeed d s = .next (s.respond (okResponse d)) := rfl

@[simp] theorem raise_eq (e : ErrorCode) (s : State) : raise e s = .next (s.respond (errorResponse e)) := rfl

@[simp] theorem orFault_ok {α : Type} (a : α) (k : α → Host.Outcome State Fault Refusal) :
    orFault (.ok a) k = k a := rfl

@[simp] theorem orFault_error {α : Type} (f : Fault) (k : α → Host.Outcome State Fault Refusal) :
    orFault (.error f) k = .fault f := rfl

/-- An operation that goes through an access goes on only when the access found its byte. -/
theorem orFault_next {α : Type} {x : Except Fault α} {k : α → Host.Outcome State Fault Refusal} {t : State}
    (h : orFault x k = .next t) : ∃ a, x = .ok a ∧ k a = .next t := by
  cases x with
  | ok a => exact ⟨a, rfl, h⟩
  | error f => exact nomatch h

theorem memRead_ok {s : State} {i : Nat} (h : i < s.cfg.pmax) : s.memRead i = .ok (s.p.read i) := by
  unfold State.memRead; rw [if_pos h]

/-- A read that succeeds gives the byte of the payload buffer. -/
theorem memRead_next {s : State} {i : Nat} {b : Byte} (h : s.memRead i = .ok b) : i < s.cfg.pmax ∧ b = s.p.read i := by
  unfold State.memRead at h
  split_ifs at h with hi
  exact ⟨hi, (Except.ok.inj h).symm⟩

theorem memWrite_ok {s : State} {i : Nat} (v : Byte) (h : i < s.cfg.pmax) :
    s.memWrite i v = .ok { s with p := s.p.write i v } := by
  unfold State.memWrite; rw [if_pos h]

/-- A write that succeeds changes `P` and nothing else. -/
theorem memWrite_next {s t : State} {i : Nat} {v : Byte} (h : s.memWrite i v = .ok t) :
    i < s.cfg.pmax ∧ t = { s with p := s.p.write i v } := by
  unfold State.memWrite at h
  split_ifs at h with hi
  exact ⟨hi, (Except.ok.inj h).symm⟩

/-- Writing a list of bytes that fits goes on, changes only `P`, and leaves in `P` the list's bytes where they were
written and the old bytes elsewhere. -/
theorem memWriteList_ok (q : List Byte) (s : State) (i : Nat) (hw : s.p.wf = true) (hi : i + q.length ≤ s.cfg.pmax) :
    ∃ m : Memory, s.memWriteList i q = .ok { s with p := m } ∧ m.wf = true ∧
      ∀ j, m.read j = if i ≤ j ∧ j < i + q.length then q.getD (j - i) 0 else s.p.read j := by
  induction q generalizing s i with
  | nil => exact ⟨s.p, rfl, hw, fun j => by rw [if_neg (by simp only [List.length_nil]; omega)]⟩
  | cons b rest ih =>
    simp only [List.length_cons] at hi
    have hwr := memWrite_ok (s := s) b (show i < s.cfg.pmax by omega)
    obtain ⟨m, hm, hmw, hmr⟩ := ih { s with p := s.p.write i b } (i + 1) (Memory.write_wf _ _ _ hw) (by simpa using by omega)
    refine ⟨m, ?_, hmw, fun j => ?_⟩
    · simp only [State.memWriteList, hwr]
      exact hm
    · rw [hmr j, Memory.read_write _ _ _ _ hw]
      by_cases h1 : j = i
      · subst h1
        rw [if_neg (by omega), if_pos rfl, if_pos (by simp only [List.length_cons]; omega)]
        simp
      · by_cases h2 : i + 1 ≤ j ∧ j < i + 1 + rest.length
        · rw [if_pos h2, if_pos (by simp only [List.length_cons]; omega)]
          obtain ⟨k, hk⟩ : ∃ k, j - i = k + 1 := ⟨j - i - 1, by omega⟩
          have hk' : j - (i + 1) = k := by omega
          rw [hk, hk']
          simp
        · rw [if_neg h2, if_neg h1, if_neg (by simp only [List.length_cons]; omega)]

/-- Everything a list of writes can do: nothing but a new `P`. -/
theorem memWriteList_next (q : List Byte) {s t : State} {i : Nat} (h : s.memWriteList i q = .ok t) :
    ∃ m, t = { s with p := m } := by
  induction q generalizing s i with
  | nil => exact ⟨s.p, (Except.ok.inj h).symm⟩
  | cons b rest ih =>
    simp only [State.memWriteList] at h
    cases hw : s.memWrite i b with
    | error f => rw [hw] at h; exact nomatch h
    | ok s' =>
      rw [hw] at h
      obtain ⟨m, hm⟩ := ih (s := s') h
      obtain ⟨-, rfl⟩ := memWrite_next hw
      exact ⟨m, hm⟩

/-- Everything a write of a register of the map can do. -/
theorem writeReg_cases (s : State) (r : RegName) (v : Byte) :
    (r = .mCmd ∧ s.writeReg r v = .ok { s with mCmd := v }) ∨
    (r = .mPos ∧ s.writeReg r v = .ok { s with mPos := v }) ∨
    (r = .mAng ∧ s.writeReg r v = .ok { s with mAng := v }) ∨
    (r = .mLock ∧ s.writeReg r v = .ok { s with mLock := v }) ∨
    (r = .mRepos ∧ s.writeReg r v = .ok { s with mRepos := v }) ∨
    (r = .tEtype ∧ s.writeReg r v = .ok { s with tEtype := v }) ∨
    (r = .tLen ∧ v.toNat ≤ s.cfg.pmax ∧ s.writeReg r v = .ok (s.allocate v)) ∨
    (r = .tLen ∧ s.cfg.pmax < v.toNat ∧ s.writeReg r v = .error .badRequest) := by
  cases r <;> simp [State.writeReg]
  omega

/-- A reset keeps the configuration and the moves still to come, and nothing else of the old state (R191). -/
theorem resetBlock_eq (cmd etype : Byte) (s : State) :
    resetBlock cmd etype s = .next { State.resetWith s.cfg cmd etype with inputs := s.inputs } := rfl

/-- Everything the end of a decoding can do. -/
theorem finishDecode_cases (s : State) (d : Decoded) :
    (∃ e, d.out = .error e ∧ finishDecode s d = .next (s.respond (diagnosed (some e) d.diag))) ∨
    (∃ m, d.out = .ok m ∧ finishDecode s d = .next ((s.setMessage m).respond (diagnosed none d.diag))) := by
  unfold finishDecode
  cases h : d.out with
  | error e => exact Or.inl ⟨e, rfl, rfl⟩
  | ok m => exact Or.inr ⟨m, rfl, rfl⟩

end Sys2Proof.Machine
end

