-- ==== Sys2Proof/Laws/Codec.lean ====
section
/-! SUPPORT. The closed forms of the encoder and the decoder: what `encodeMessage` and `decodeTelegram` give in each case,
and what ENC and a decoder do with it. -/

namespace Sys2Proof.Machine

/-! The encoder. -/

theorem encodeDB0_eq : ∀ cmd : Byte,
    encodeDB0 cmd = if cmd.toNat < 16 then .ok cmd else .error .fieldRangeError := by decide

theorem ins_full : ∀ x : Byte, ins 0 0 8 x = .ok x := by decide

theorem ins_low3 : ∀ x : Byte, ins 0 0 3 x = if x.toNat < 8 then .ok x else .error .fieldRangeError := by decide

theorem low3_and_not_mask : ∀ x : Byte, x.toNat < 8 → x &&& ~~~(mask 3 <<< 4) = x := by decide

theorem encodeDB1_reply (lock repos : Byte) :
    encodeDB1 false lock repos = if lock.toNat < 8 then .ok lock else .error .fieldRangeError := by
  unfold encodeDB1
  rw [ins_low3]
  by_cases h : lock.toNat < 8
  · rw [if_pos h]; rfl
  · rw [if_neg h]; rfl

theorem encodeDB1_goTo (lock repos : Byte) :
    encodeDB1 true lock repos =
      if lock.toNat < 8 ∧ repos.toNat < 8 then .ok (lock ||| (repos <<< 4)) else .error .fieldRangeError := by
  unfold encodeDB1
  rw [ins_low3]
  by_cases hl : lock.toNat < 8
  · rw [if_pos hl]
    by_cases hr : repos.toNat < 8
    · rw [if_pos ⟨hl, hr⟩]
      show ins lock 4 3 repos = _
      rw [ins_fits lock 4 3 repos (by omega) (by omega), low3_and_not_mask lock hl]
    · rw [if_neg (fun h => hr h.2)]
      exact ins_too_big lock 4 3 repos (by omega)
  · rw [if_neg hl, if_neg (fun h => hl h.1)]; rfl

theorem encodeF4_goTo (m : Message) (db0 : Byte) :
    encodeF4 true m db0 =
      if m.lock.toNat < 8 ∧ m.repos.toNat < 8 then .ok [m.pos, m.ang, m.lock ||| (m.repos <<< 4), db0]
      else .error .fieldRangeError := by
  unfold encodeF4
  rw [ins_full, ins_full, encodeDB1_goTo]
  split_ifs <;> rfl

theorem encodeF4_reply (m : Message) (db0 : Byte) :
    encodeF4 false m db0 =
      if m.lock.toNat < 8 then .ok [m.pos, m.ang, m.lock, db0] else .error .fieldRangeError := by
  unfold encodeF4
  rw [ins_full, ins_full, encodeDB1_reply]
  split_ifs <;> rfl

/-- The whole encoder, case by case. -/
theorem encodeMessage_eq (cfg : Cfg) (m : Message) : encodeMessage cfg m =
    if m.cmd.toNat < 16 then
      match classify cfg m.cmd with
      | some .query => .ok [m.cmd]
      | some .stop => .ok [m.cmd]
      | some .goTo =>
        if m.lock.toNat < 8 ∧ m.repos.toNat < 8 then .ok [m.pos, m.ang, m.lock ||| (m.repos <<< 4), m.cmd]
        else .error .fieldRangeError
      | some .reply =>
        if m.lock.toNat < 8 then .ok [m.pos, m.ang, m.lock, m.cmd] else .error .fieldRangeError
      | some .setParameters => .error .notImplemented
      | none => .error .unknownCommand
    else .error .fieldRangeError := by
  unfold encodeMessage
  rw [encodeDB0_eq]
  by_cases h : m.cmd.toNat < 16
  · rw [if_pos h, if_pos h]
    show (match classify cfg m.cmd with
      | some .query => (.ok [m.cmd] : Except ErrorCode (List Byte))
      | some .stop => .ok [m.cmd]
      | some .goTo => encodeF4 true m m.cmd
      | some .reply => encodeF4 false m m.cmd
      | some .setParameters => .error .notImplemented
      | none => .error .unknownCommand) = _
    rw [encodeF4_goTo, encodeF4_reply]
  · rw [if_neg h, if_neg h]; rfl

/-- Step 1 of R120 fails. -/
theorem encodeMessage_tooBig (cfg : Cfg) {m : Message} (h : 16 ≤ m.cmd.toNat) :
    encodeMessage cfg m = .error .fieldRangeError := by
  rw [encodeMessage_eq, if_neg (by omega)]

/-- Step 2 of R120. -/
theorem encodeMessage_short {cfg : Cfg} {m : Message} (h16 : m.cmd.toNat < 16)
    (h : classify cfg m.cmd = some .query ∨ classify cfg m.cmd = some .stop) : encodeMessage cfg m = .ok [m.cmd] := by
  rw [encodeMessage_eq, if_pos h16]; rcases h with h | h <;> rw [h]

/-- Step 3 of R120 for a GoTo. -/
theorem encodeMessage_goTo {cfg : Cfg} {m : Message} (h16 : m.cmd.toNat < 16) (h : classify cfg m.cmd = some .goTo) :
    encodeMessage cfg m =
      if m.lock.toNat < 8 ∧ m.repos.toNat < 8 then .ok [m.pos, m.ang, m.lock ||| (m.repos <<< 4), m.cmd]
      else .error .fieldRangeError := by
  rw [encodeMessage_eq, if_pos h16, h]

/-- Step 3 of R120 for a Reply. -/
theorem encodeMessage_reply {cfg : Cfg} {m : Message} (h16 : m.cmd.toNat < 16) (h : classify cfg m.cmd = some .reply) :
    encodeMessage cfg m =
      if m.lock.toNat < 8 then .ok [m.pos, m.ang, m.lock, m.cmd] else .error .fieldRangeError := by
  rw [encodeMessage_eq, if_pos h16, h]

/-- Step 4 of R120. -/
theorem encodeMessage_setParameters {cfg : Cfg} {m : Message} (h16 : m.cmd.toNat < 16)
    (h : classify cfg m.cmd = some .setParameters) : encodeMessage cfg m = .error .notImplemented := by
  rw [encodeMessage_eq, if_pos h16, h]

/-- Step 5 of R120. -/
theorem encodeMessage_unknown {cfg : Cfg} {m : Message} (h16 : m.cmd.toNat < 16) (h : classify cfg m.cmd = none) :
    encodeMessage cfg m = .error .unknownCommand := by
  rw [encodeMessage_eq, if_pos h16, h]

/-- Everything the encoder can do: one of its three errors, the one byte of a Query or a Stop, the four bytes of a GoTo or
of a Reply. -/
theorem encodeMessage_cases (cfg : Cfg) (m : Message) :
    (∃ e, (e = .unknownCommand ∨ e = .notImplemented ∨ e = .fieldRangeError) ∧ encodeMessage cfg m = .error e) ∨
    (m.cmd.toNat < 16 ∧ (classify cfg m.cmd = some .query ∨ classify cfg m.cmd = some .stop) ∧
      encodeMessage cfg m = .ok [m.cmd]) ∨
    (m.cmd.toNat < 16 ∧ classify cfg m.cmd = some .goTo ∧ m.lock.toNat < 8 ∧ m.repos.toNat < 8 ∧
      encodeMessage cfg m = .ok [m.pos, m.ang, m.lock ||| (m.repos <<< 4), m.cmd]) ∨
    (m.cmd.toNat < 16 ∧ classify cfg m.cmd = some .reply ∧ m.lock.toNat < 8 ∧
      encodeMessage cfg m = .ok [m.pos, m.ang, m.lock, m.cmd]) := by
  by_cases h16 : m.cmd.toNat < 16
  · cases hc : classify cfg m.cmd with
    | none => exact Or.inl ⟨_, Or.inl rfl, encodeMessage_unknown h16 hc⟩
    | some c =>
      cases c with
      | query => exact Or.inr (Or.inl ⟨h16, Or.inl rfl, encodeMessage_short h16 (Or.inl hc)⟩)
      | stop => exact Or.inr (Or.inl ⟨h16, Or.inr rfl, encodeMessage_short h16 (Or.inr hc)⟩)
      | goTo =>
        have e := encodeMessage_goTo h16 hc
        by_cases hlr : m.lock.toNat < 8 ∧ m.repos.toNat < 8
        · exact Or.inr (Or.inr (Or.inl ⟨h16, rfl, hlr.1, hlr.2, by rw [e, if_pos hlr]⟩))
        · exact Or.inl ⟨_, Or.inr (Or.inr rfl), by rw [e, if_neg hlr]⟩
      | reply =>
        have e := encodeMessage_reply h16 hc
        by_cases hl : m.lock.toNat < 8
        · exact Or.inr (Or.inr (Or.inr ⟨h16, rfl, hl, by rw [e, if_pos hl]⟩))
        · exact Or.inl ⟨_, Or.inr (Or.inr rfl), by rw [e, if_neg hl]⟩
      | setParameters => exact Or.inl ⟨_, Or.inr (Or.inl rfl), encodeMessage_setParameters h16 hc⟩
  · exact Or.inl ⟨_, Or.inr (Or.inr rfl), encodeMessage_tooBig cfg (by omega)⟩

/-- A payload the encoder gives has one byte or four. -/
theorem encodeMessage_length {cfg : Cfg} {m : Message} {q : List Byte} (h : encodeMessage cfg m = .ok q) :
    q.length = 1 ∨ q.length = 4 := by
  rcases encodeMessage_cases cfg m with ⟨e, -, he⟩ | ⟨-, -, he⟩ | ⟨-, -, -, -, he⟩ | ⟨-, -, -, he⟩ <;>
    rw [he] at h
  · exact nomatch h
  · exact Or.inl (congrArg List.length (Except.ok.inj h)).symm
  · exact Or.inr (congrArg List.length (Except.ok.inj h)).symm
  · exact Or.inr (congrArg List.length (Except.ok.inj h)).symm

/-- A failing encoder makes ENC raise that error. -/
theorem execEnc_error {s : State} {e : ErrorCode} (h : encodeMessage s.cfg s.message = .error e) :
    execEnc s = .next (s.respond (errorResponse e)) := by
  unfold execEnc; rw [h]; rfl

/-- A succeeding encoder makes ENC replace the whole telegram by the payload. -/
theorem execEnc_ok {s : State} {q : List Byte} (hp : 5 ≤ s.cfg.pmax) (h : encodeMessage s.cfg s.message = .ok q) :
    ∃ m : Memory, execEnc s =
        .next (({ s with tEtype := s.cfg.envVld, tLen := BitVec.ofNat 8 q.length, p := m } : State).respond
          (okResponse 0)) ∧ m.wf = true ∧ ∀ j, m.read j = q.getD j 0 := by
  have hl : q.length ≤ 4 := by rcases encodeMessage_length h with h | h <;> omega
  obtain ⟨m, hm, hw, hr⟩ := memWriteList_ok q
    (({ s with tEtype := s.cfg.envVld } : State).allocate (BitVec.ofNat 8 q.length)) 0 rfl
    (by simp only [State.allocate_cfg]; omega)
  refine ⟨m, ?_, hw, fun j => ?_⟩
  · unfold execEnc
    rw [h]
    show orFault _ (succeed 0) = _
    rw [hm]
    rfl
  · rw [hr j]
    by_cases hj : j < q.length
    · rw [if_pos ⟨Nat.zero_le j, by omega⟩, Nat.sub_zero]
    · rw [if_neg (by omega)]
      simp only [State.allocate_p, Memory.read_nil]
      simp [hj]

/-! The decoder. -/

theorem readDB_ok {s : State} {n : Nat} (hn : n < s.tLen.toNat) (hl : s.tLen.toNat ≤ s.cfg.pmax) :
    s.readDB n = .ok (s.p.read (s.tLen.toNat - 1 - n)) := by
  unfold State.readDB State.dbPos
  exact memRead_ok (by omega)

theorem ext_low3 : ∀ x : Byte, ext x 0 3 = .ok (x &&& 7) := by decide

theorem ext_mid3 : ∀ x : Byte, ext x 4 3 = .ok ((x >>> 4) &&& 7) := by decide

/-- A GoTo or Reply of the right length, its three other bytes at hand. -/
theorem decodeF4_four (goTo : Bool) (db : Nat → Except Fault Byte) (m0 : Message) (cmd : Byte) (diag : Nibble)
    {b3 b2 b1 : Byte} (h3 : db 3 = .ok b3) (h2 : db 2 = .ok b2) (h1 : db 1 = .ok b1) :
    decodeF4 goTo 4 db m0 cmd diag = .ok {
      out := .ok { cmd := cmd, pos := b3, ang := b2, lock := b1 &&& 7,
                   repos := if goTo then (b1 >>> 4) &&& 7 else m0.repos }
      diag := some diag } := by
  unfold decodeF4
  rw [if_neg (by decide), h3, h2, h1]
  cases goTo
  · show Except.ok _ = Except.ok _
    rw [ext_low3]; rfl
  · show Except.ok _ = Except.ok _
    rw [ext_low3, ext_mid3]; rfl

/-- A GoTo or Reply of another length. -/
theorem decodeF4_mismatch (goTo : Bool) (len : Nat) (db : Nat → Except Fault Byte) (m0 : Message) (cmd : Byte)
    (diag : Nibble) (h : len ≠ 4) :
    decodeF4 goTo len db m0 cmd diag = .ok { out := .error .payloadLengthMismatch, diag := some diag } := by
  unfold decodeF4; rw [if_pos h]

theorem decodeFrom_envelope {cfg : Cfg} {etype : Byte} (len : Nat) (db : Nat → Except Fault Byte)
    (x : Except Fault Byte) (m0 : Message) (h : etype ≠ cfg.envVld) :
    decodeFrom cfg etype len db x m0 = .ok { out := .error .envelopeMismatch, diag := none } := by
  unfold decodeFrom; rw [if_pos h]

theorem decodeFrom_empty {cfg : Cfg} (db : Nat → Except Fault Byte) (x : Except Fault Byte) (m0 : Message) :
    decodeFrom cfg cfg.envVld 0 db x m0 = .ok { out := .error .emptyPayload, diag := none } := by
  unfold decodeFrom; rw [if_neg (by simp), if_pos (by omega)]

theorem decodeFrom_command {cfg : Cfg} {len : Nat} (db : Nat → Except Fault Byte) (b0 : Byte) (m0 : Message)
    (h : 1 ≤ len) : decodeFrom cfg cfg.envVld len db (.ok b0) m0 = decodeCommand cfg len db m0 b0 := by
  unfold decodeFrom; rw [if_neg (by simp), if_neg (by omega)]; rfl

/-- Step 4 of R141. -/
theorem decodeCommand_query {cfg : Cfg} (len : Nat) (db : Nat → Except Fault Byte) (m0 : Message) {b0 : Byte}
    (h : classify cfg ((commandNibble b0).setWidth 8) = some .query) :
    decodeCommand cfg len db m0 b0 =
      .ok { out := .ok { m0 with cmd := (commandNibble b0).setWidth 8 }, diag := some (channelNibble b0) } := by
  unfold decodeCommand; simp only [h]

/-- Step 4 of R141. -/
theorem decodeCommand_stop {cfg : Cfg} (len : Nat) (db : Nat → Except Fault Byte) (m0 : Message) {b0 : Byte}
    (h : classify cfg ((commandNibble b0).setWidth 8) = some .stop) :
    decodeCommand cfg len db m0 b0 =
      .ok { out := .ok { m0 with cmd := (commandNibble b0).setWidth 8 }, diag := some (channelNibble b0) } := by
  unfold decodeCommand; simp only [h]

/-- Step 5 of R141. -/
theorem decodeCommand_goTo {cfg : Cfg} (len : Nat) (db : Nat → Except Fault Byte) (m0 : Message) {b0 : Byte}
    (h : classify cfg ((commandNibble b0).setWidth 8) = some .goTo) :
    decodeCommand cfg len db m0 b0 =
      decodeF4 true len db m0 ((commandNibble b0).setWidth 8) (channelNibble b0) := by
  unfold decodeCommand; simp only [h]

/-- Step 5 of R141. -/
theorem decodeCommand_reply {cfg : Cfg} (len : Nat) (db : Nat → Except Fault Byte) (m0 : Message) {b0 : Byte}
    (h : classify cfg ((commandNibble b0).setWidth 8) = some .reply) :
    decodeCommand cfg len db m0 b0 =
      decodeF4 false len db m0 ((commandNibble b0).setWidth 8) (channelNibble b0) := by
  unfold decodeCommand; simp only [h]

/-- Step 6 of R141. -/
theorem decodeCommand_unknown {cfg : Cfg} (len : Nat) (db : Nat → Except Fault Byte) (m0 : Message) {b0 : Byte}
    (h : classify cfg ((commandNibble b0).setWidth 8) = none ∨
      classify cfg ((commandNibble b0).setWidth 8) = some .setParameters) :
    decodeCommand cfg len db m0 b0 = .ok { out := .error .unknownCommand, diag := some (channelNibble b0) } := by
  unfold decodeCommand; rcases h with h | h <;> simp only [h]

/-- Every byte the decoder asks for exists when the length is one the register can hold: decoding always ends. -/
theorem decodeCommand_total (cfg : Cfg) (len : Nat) (db : Nat → Except Fault Byte) (m0 : Message) (b0 : Byte)
    (h : len = 4 → ∀ n < 4, ∃ b, db n = .ok b) : ∃ d, decodeCommand cfg len db m0 b0 = .ok d := by
  have hf : ∀ g c x, ∃ d, decodeF4 g len db m0 c x = .ok d := by
    intro g c x
    by_cases h4 : len = 4
    · obtain ⟨b3, h3⟩ := h h4 3 (by omega)
      obtain ⟨b2, h2⟩ := h h4 2 (by omega)
      obtain ⟨b1, h1⟩ := h h4 1 (by omega)
      subst h4
      exact ⟨_, decodeF4_four g db m0 c x h3 h2 h1⟩
    · exact ⟨_, decodeF4_mismatch g len db m0 c x h4⟩
  cases hc : classify cfg ((commandNibble b0).setWidth 8) with
  | none => exact ⟨_, decodeCommand_unknown len db m0 (Or.inl hc)⟩
  | some c =>
    cases c with
    | query => exact ⟨_, decodeCommand_query len db m0 hc⟩
    | stop => exact ⟨_, decodeCommand_stop len db m0 hc⟩
    | goTo => rw [decodeCommand_goTo len db m0 hc]; exact hf _ _ _
    | reply => rw [decodeCommand_reply len db m0 hc]; exact hf _ _ _
    | setParameters => exact ⟨_, decodeCommand_unknown len db m0 (Or.inr hc)⟩

/-- A decoder in a state with `T.LEN ≤ PMAX` always ends in a next state. -/
theorem decodeOnto_total (m0 : Message) (s : State) (h : s.tLen.toNat ≤ s.cfg.pmax) :
    ∃ d, decodeTelegram s.cfg s.tEtype s.tLen.toNat s.readDB m0 = .ok d ∧ decodeOnto m0 s = finishDecode s d := by
  have key : ∃ d, decodeTelegram s.cfg s.tEtype s.tLen.toNat s.readDB m0 = .ok d := by
    unfold decodeTelegram
    by_cases he : s.tEtype = s.cfg.envVld
    · rw [he]
      by_cases hl : s.tLen.toNat = 0
      · rw [hl]; exact ⟨_, decodeFrom_empty _ _ _⟩
      · rw [readDB_ok (by omega) h, decodeFrom_command _ _ _ (by omega)]
        exact decodeCommand_total _ _ _ _ _ fun h4 n hn => ⟨_, readDB_ok (by omega) h⟩
    · exact ⟨_, decodeFrom_envelope _ _ _ _ he⟩
  obtain ⟨d, hd⟩ := key
  refine ⟨d, hd, ?_⟩
  unfold decodeOnto
  rw [hd]; rfl

/-- A reception in a state with `T.LEN ≤ PMAX` always ends in a next state. -/
theorem receive_total (b0 : Byte) (s : State) (h : s.tLen.toNat ≤ s.cfg.pmax) :
    ∃ d, decodeFrom s.cfg s.tEtype s.tLen.toNat s.readDB (.ok b0) (freshMessage s.mCmd) = .ok d ∧
      receive b0 s = finishDecode s d := by
  have key : ∃ d, decodeFrom s.cfg s.tEtype s.tLen.toNat s.readDB (.ok b0) (freshMessage s.mCmd) = .ok d := by
    by_cases he : s.tEtype = s.cfg.envVld
    · rw [he]
      by_cases hl : s.tLen.toNat = 0
      · rw [hl]; exact ⟨_, decodeFrom_empty _ _ _⟩
      · rw [decodeFrom_command _ _ _ (by omega)]
        exact decodeCommand_total _ _ _ _ _ fun h4 n hn => ⟨_, readDB_ok (by omega) h⟩
    · exact ⟨_, decodeFrom_envelope _ _ _ _ he⟩
  obtain ⟨d, hd⟩ := key
  refine ⟨d, hd, ?_⟩
  unfold receive
  rw [hd]; rfl

/-- Step 1 of R141 fails: nothing is read. -/
theorem decodeOnto_envelope (m0 : Message) {s : State} (h : s.tEtype ≠ s.cfg.envVld) :
    decodeOnto m0 s = .next (s.respond (diagnosed (some .envelopeMismatch) none)) := by
  unfold decodeOnto decodeTelegram
  rw [decodeFrom_envelope _ _ _ _ h]; rfl

/-- Step 2 of R141 fails: nothing is read. -/
theorem decodeOnto_empty (m0 : Message) {s : State} (h : s.tEtype = s.cfg.envVld) (hl : s.tLen.toNat = 0) :
    decodeOnto m0 s = .next (s.respond (diagnosed (some .emptyPayload) none)) := by
  unfold decodeOnto decodeTelegram
  rw [h, hl, decodeFrom_empty]; rfl

/-- Steps 1 and 2 of R141 pass: the command in DB0 decides. -/
theorem decodeOnto_command (m0 : Message) {s : State} (h : s.tEtype = s.cfg.envVld) (h1 : 1 ≤ s.tLen.toNat)
    (hl : s.tLen.toNat ≤ s.cfg.pmax) :
    decodeOnto m0 s = orFault (decodeCommand s.cfg s.tLen.toNat s.readDB m0 (s.p.read (s.tLen.toNat - 1)))
      (finishDecode s) := by
  unfold decodeOnto decodeTelegram
  rw [h, readDB_ok (by omega) hl, decodeFrom_command _ _ _ h1, Nat.sub_zero]

theorem receive_envelope (b0 : Byte) {s : State} (h : s.tEtype ≠ s.cfg.envVld) :
    receive b0 s = .next (s.respond (diagnosed (some .envelopeMismatch) none)) := by
  unfold receive
  rw [decodeFrom_envelope _ _ _ _ h]; rfl

theorem receive_empty (b0 : Byte) {s : State} (h : s.tEtype = s.cfg.envVld) (hl : s.tLen.toNat = 0) :
    receive b0 s = .next (s.respond (diagnosed (some .emptyPayload) none)) := by
  unfold receive
  rw [h, hl, decodeFrom_empty]; rfl

theorem receive_command (b0 : Byte) {s : State} (h : s.tEtype = s.cfg.envVld) (h1 : 1 ≤ s.tLen.toNat) :
    receive b0 s = orFault (decodeCommand s.cfg s.tLen.toNat s.readDB (freshMessage s.mCmd) b0) (finishDecode s) := by
  unfold receive
  rw [h, decodeFrom_command _ _ _ h1]

/-- A GoTo or Reply of 4 bytes in the telegram registers. -/
theorem decodeF4_registers (goTo : Bool) (m0 : Message) (cmd : Byte) (diag : Nibble) {s : State}
    (h4 : s.tLen.toNat = 4) (hl : 4 ≤ s.cfg.pmax) :
    decodeF4 goTo 4 s.readDB m0 cmd diag = .ok {
      out := .ok { cmd := cmd, pos := s.p.read 0, ang := s.p.read 1, lock := s.p.read 2 &&& 7,
                   repos := if goTo then (s.p.read 2 >>> 4) &&& 7 else m0.repos }
      diag := some diag } := by
  have hr : ∀ n, n < 4 → s.readDB n = .ok (s.p.read (3 - n)) := by
    intro n hn
    rw [readDB_ok (by omega) (by omega)]
    have : s.tLen.toNat - 1 - n = 3 - n := by omega
    rw [this]
  exact decodeF4_four goTo s.readDB m0 cmd diag (hr 3 (by omega)) (hr 2 (by omega)) (hr 1 (by omega))

/-- What a decoder leaves: the message registers and a response, nothing else. -/
theorem decodeOnto_next {m0 : Message} {s t : State} (h : decodeOnto m0 s = .next t) :
    ∃ m r, t = (s.setMessage m).respond r := by
  obtain ⟨d, -, hd⟩ := orFault_next h
  rcases finishDecode_cases s d with ⟨e, -, hf⟩ | ⟨m, -, hf⟩
  · rw [hf] at hd
    injection hd with hd
    exact ⟨s.message, _, hd.symm⟩
  · rw [hf] at hd
    injection hd with hd
    exact ⟨m, _, hd.symm⟩

/-- What a reception leaves: the message registers and a response, nothing else. -/
theorem receive_next {b0 : Byte} {s t : State} (h : receive b0 s = .next t) :
    ∃ m r, t = (s.setMessage m).respond r := by
  obtain ⟨d, -, hd⟩ := orFault_next h
  rcases finishDecode_cases s d with ⟨e, -, hf⟩ | ⟨m, -, hf⟩
  · rw [hf] at hd
    injection hd with hd
    exact ⟨s.message, _, hd.symm⟩
  · rw [hf] at hd
    injection hd with hd
    exact ⟨m, _, hd.symm⟩

end Sys2Proof.Machine
end

