-- ==== Sys2Proof/Laws/Exec.lean ====
section
/-! SUPPORT. For each meaning, once, everything it can do: the next states it answers, and that it always answers one in a
state whose payload length is at most the capacity. -/

namespace Sys2Proof.Machine

/-- A run of one step more is a step and then the run. -/
theorem run_succ (M : Host.Core) (n : Nat) (s : M.State) : M.run (n + 1) s =
    match M.step s with
    | .next t => M.run n t
    | .fault f => .fault f
    | .refused r => .refused r := by
  delta Host.Core.run
  rfl

/-- A run of this machine whose first step goes on is the run from there. -/
theorem core_run_next {s t : State} (h : step s = .next t) (n : Nat) :
    Host.Core.run Sys2Proof.core (n + 1) s = Host.Core.run Sys2Proof.core n t := by
  refine (run_succ Sys2Proof.core n s).trans ?_
  have hc : Sys2Proof.core.step s = .next t := h
  simp only [hc]

/-- BFINS fails and changes nothing, or stores one byte in the container. -/
theorem execBfins_cases (a b : Nibble) (v : Byte) (s : State) :
    ((8 < a.toNat + b.toNat ∨ 2 ^ b.toNat ≤ v.toNat) ∧
      execBfins a b v s = .next (s.respond (errorResponse .fieldRangeError))) ∨
    (a.toNat + b.toNat ≤ 8 ∧ v.toNat < 2 ^ b.toNat ∧ ∃ r, ins s.bf a.toNat b.toNat v = .ok r ∧
      execBfins a b v s = .next (({ s with bf := r } : State).respond (okResponse 0))) := by
  rcases ins_cases s.bf a.toNat b.toNat v with ⟨h1, h2, h⟩ | ⟨h1, h⟩
  · exact Or.inr ⟨h1, h2, _, h, by unfold execBfins; rw [h]; rfl⟩
  · exact Or.inl ⟨h1, by unfold execBfins; rw [h]; rfl⟩

/-- BFEXT fails or responds; it changes nothing. -/
theorem execBfext_cases (a b : Nibble) (s : State) :
    (8 < a.toNat + b.toNat ∧ execBfext a b s = .next (s.respond (errorResponse .fieldRangeError))) ∨
    (a.toNat + b.toNat ≤ 8 ∧ ∃ d, ext s.bf a.toNat b.toNat = .ok d ∧
      execBfext a b s = .next (s.respond (okResponse d))) := by
  by_cases h : a.toNat + b.toNat ≤ 8
  · have e := ext_fits s.bf a.toNat b.toNat h
    exact Or.inr ⟨h, _, e, by unfold execBfext; rw [e]; rfl⟩
  · have e := ext_out_of_byte s.bf a.toNat b.toNat (by omega)
    exact Or.inl ⟨by omega, by unfold execBfext; rw [e]; rfl⟩

/-- HRD fails or responds with a register; it changes nothing. -/
theorem execHrd_cases (a : Nibble) (s : State) :
    (regAt a = none ∧ execHrd a s = .next (s.respond (errorResponse .badRequest))) ∨
    (∃ r, regAt a = some r ∧ execHrd a s = .next (s.respond (okResponse (s.readReg r)))) := by
  unfold execHrd
  cases h : regAt a with
  | none => exact Or.inl ⟨rfl, rfl⟩
  | some r => exact Or.inr ⟨r, rfl, rfl⟩

/-- HWR fails and changes nothing, or writes the one register. -/
theorem execHwr_cases (a : Nibble) (v : Byte) (s : State) :
    ((regAt a = none ∨ (regAt a = some .tLen ∧ s.cfg.pmax < v.toNat)) ∧
      execHwr a v s = .next (s.respond (errorResponse .badRequest))) ∨
    (∃ r s', regAt a = some r ∧ (r = .tLen → v.toNat ≤ s.cfg.pmax) ∧ s.writeReg r v = .ok s' ∧
      execHwr a v s = .next (s'.respond (okResponse 0))) := by
  unfold execHwr
  cases h : regAt a with
  | none => exact Or.inl ⟨Or.inl rfl, rfl⟩
  | some r =>
    by_cases hr : r = .tLen
    · subst hr
      by_cases hv : v.toNat ≤ s.cfg.pmax
      · have e : s.writeReg .tLen v = .ok (s.allocate v) := by unfold State.writeReg; exact if_neg (by omega)
        exact Or.inr ⟨_, _, rfl, fun _ => hv, e, by simp only [e]; rfl⟩
      · have e : s.writeReg .tLen v = .error .badRequest := by unfold State.writeReg; exact if_pos (by omega)
        exact Or.inl ⟨Or.inr ⟨rfl, by omega⟩, by simp only [e]; rfl⟩
    · obtain ⟨s', hs'⟩ : ∃ s', s.writeReg r v = .ok s' := by cases r <;> first | exact ⟨_, rfl⟩ | exact absurd rfl hr
      exact Or.inr ⟨r, s', rfl, fun hh => absurd hh hr, hs', by simp only [hs']; rfl⟩

/-- GETDB fails or responds with a byte; it changes nothing. -/
theorem execGetdb_cases (a : Nibble) {s : State} (h : s.tLen.toNat ≤ s.cfg.pmax) :
    (s.tLen.toNat ≤ a.toNat ∧ execGetdb a s = .next (s.respond (errorResponse .badRequest))) ∨
    (a.toNat < s.tLen.toNat ∧
      execGetdb a s = .next (s.respond (okResponse (s.p.read (s.tLen.toNat - 1 - a.toNat))))) := by
  unfold execGetdb
  by_cases ha : a.toNat ≥ s.tLen.toNat
  · exact Or.inl ⟨ha, by rw [if_pos ha]; rfl⟩
  · exact Or.inr ⟨by omega, by rw [if_neg ha, readDB_ok (by omega) h]; rfl⟩

/-- SETDB fails and changes nothing, or writes one byte of the payload. -/
theorem execSetdb_cases (a : Nibble) (v : Byte) {s : State} (h : s.tLen.toNat ≤ s.cfg.pmax) :
    (s.tLen.toNat ≤ a.toNat ∧ execSetdb a v s = .next (s.respond (errorResponse .badRequest))) ∨
    (a.toNat < s.tLen.toNat ∧ execSetdb a v s =
      .next (({ s with p := s.p.write (s.tLen.toNat - 1 - a.toNat) v } : State).respond (okResponse 0))) := by
  unfold execSetdb
  by_cases ha : a.toNat ≥ s.tLen.toNat
  · exact Or.inl ⟨ha, by rw [if_pos ha]; rfl⟩
  · refine Or.inr ⟨by omega, ?_⟩
    rw [if_neg ha]
    unfold State.writeDB State.dbPos
    rw [memWrite_ok v (show s.tLen.toNat - 1 - a.toNat < s.cfg.pmax by omega)]
    rfl

/-- GETDB changes nothing, in any state in which it answers a next one. -/
theorem execGetdb_next {a : Nibble} {s t : State} (h : execGetdb a s = .next t) : ∃ r, t = s.respond r ∧ r.warn = false ∧
    (r.err = none ∨ r.err = some .badRequest) := by
  unfold execGetdb at h
  split at h
  · injection h with h; exact ⟨_, h.symm, rfl, Or.inr rfl⟩
  · obtain ⟨d, -, hd⟩ := orFault_next h
    injection hd with hd; exact ⟨_, hd.symm, rfl, Or.inl rfl⟩

/-- SETDB changes nothing but the payload buffer, in any state in which it answers a next one. -/
theorem execSetdb_next {a : Nibble} {v : Byte} {s t : State} (h : execSetdb a v s = .next t) :
    t = s.respond (errorResponse .badRequest) ∨
    ∃ i, t = ({ s with p := s.p.write i v } : State).respond (okResponse 0) := by
  unfold execSetdb at h
  split at h
  · injection h with h; exact Or.inl h.symm
  · obtain ⟨u, hu, hd⟩ := orFault_next h
    obtain ⟨-, rfl⟩ := memWrite_next hu
    injection hd with hd
    exact Or.inr ⟨_, hd.symm⟩

/-- ENC changes nothing but the telegram registers, in any state in which it answers a next one. -/
theorem execEnc_next {s t : State} (h : execEnc s = .next t) :
    (∃ e, (e = .unknownCommand ∨ e = .notImplemented ∨ e = .fieldRangeError) ∧ t = s.respond (errorResponse e)) ∨
    ∃ q m, encodeMessage s.cfg s.message = .ok q ∧
      t = ({ s with tEtype := s.cfg.envVld, tLen := BitVec.ofNat 8 q.length, p := m } : State).respond
        (okResponse 0) := by
  unfold execEnc at h
  cases he : encodeMessage s.cfg s.message with
  | error e =>
    rw [he] at h; injection h with h
    refine Or.inl ⟨e, ?_, h.symm⟩
    rcases encodeMessage_cases s.cfg s.message with ⟨e', he', hh⟩ | ⟨-, -, hh⟩ | ⟨-, -, -, -, hh⟩ | ⟨-, -, -, hh⟩ <;>
      rw [he] at hh
    · injection hh with hh; rw [hh]; exact he'
    all_goals exact nomatch hh
  | ok q =>
    rw [he] at h
    obtain ⟨u, hu, hd⟩ := orFault_next h
    obtain ⟨m, rfl⟩ := memWriteList_next q hu
    injection hd with hd
    exact Or.inr ⟨q, m, rfl, hd.symm⟩

/-- ENC always answers a next state when the payload buffer holds four bytes. -/
theorem execEnc_total {s : State} (hp : 5 ≤ s.cfg.pmax) : ∃ t, execEnc s = .next t := by
  cases he : encodeMessage s.cfg s.message with
  | error e => exact ⟨_, execEnc_error he⟩
  | ok q => obtain ⟨m, hm, -⟩ := execEnc_ok hp he; exact ⟨_, hm⟩

/-- What the command in DB0 decodes to, whatever the length: a message with the diagnostic, or one of two errors with
it; a code that is none of the four accepted commands never gives a message. -/
theorem decodeCommand_cases {cfg : Cfg} {len : Nat} {db : Nat → Except Fault Byte} {m0 : Message} {b0 : Byte}
    {d : Decoded} (h : decodeCommand cfg len db m0 b0 = .ok d) :
    d.diag = some (channelNibble b0) ∧
    ((d.out = .error .unknownCommand ∧ (classify cfg ((commandNibble b0).setWidth 8) = none ∨
        classify cfg ((commandNibble b0).setWidth 8) = some .setParameters)) ∨
      (d.out = .error .payloadLengthMismatch ∧ len ≠ 4 ∧ (classify cfg ((commandNibble b0).setWidth 8) = some .goTo ∨
        classify cfg ((commandNibble b0).setWidth 8) = some .reply)) ∨
      (d.out = .ok { m0 with cmd := (commandNibble b0).setWidth 8 } ∧
        (classify cfg ((commandNibble b0).setWidth 8) = some .query ∨
          classify cfg ((commandNibble b0).setWidth 8) = some .stop)) ∨
      (∃ (goTo : Bool) (b3 b2 b1 : Byte), len = 4 ∧ db 3 = .ok b3 ∧ db 2 = .ok b2 ∧ db 1 = .ok b1 ∧
        classify cfg ((commandNibble b0).setWidth 8) = some (if goTo then .goTo else .reply) ∧
        d.out = .ok { cmd := (commandNibble b0).setWidth 8, pos := b3, ang := b2, lock := b1 &&& 7,
                      repos := if goTo then (b1 >>> 4) &&& 7 else m0.repos })) := by
  have hf : ∀ goTo : Bool, classify cfg ((commandNibble b0).setWidth 8) = some (if goTo then .goTo else .reply) →
      decodeF4 goTo len db m0 ((commandNibble b0).setWidth 8) (channelNibble b0) = .ok d →
      d.diag = some (channelNibble b0) ∧
      ((d.out = .error .payloadLengthMismatch ∧ len ≠ 4) ∨
        ∃ b3 b2 b1, len = 4 ∧ db 3 = .ok b3 ∧ db 2 = .ok b2 ∧ db 1 = .ok b1 ∧
          d.out = .ok { cmd := (commandNibble b0).setWidth 8, pos := b3, ang := b2, lock := b1 &&& 7,
                        repos := if goTo then (b1 >>> 4) &&& 7 else m0.repos }) := by
    intro goTo _ hd
    by_cases h4 : len = 4
    · subst h4
      cases h3 : db 3 with
      | error f => unfold decodeF4 at hd; rw [if_neg (by decide), h3] at hd; exact nomatch hd
      | ok b3 =>
        cases h2 : db 2 with
        | error f => unfold decodeF4 at hd; rw [if_neg (by decide), h3, h2] at hd; exact nomatch hd
        | ok b2 =>
          cases h1 : db 1 with
          | error f => unfold decodeF4 at hd; rw [if_neg (by decide), h3, h2, h1] at hd; exact nomatch hd
          | ok b1 =>
            rw [decodeF4_four goTo db m0 _ _ h3 h2 h1] at hd
            have := Except.ok.inj hd
            subst this
            exact ⟨rfl, Or.inr ⟨b3, b2, b1, rfl, rfl, rfl, rfl, rfl⟩⟩
    · rw [decodeF4_mismatch goTo len db m0 _ _ h4] at hd
      have := Except.ok.inj hd
      subst this
      exact ⟨rfl, Or.inl ⟨rfl, h4⟩⟩
  cases hc : classify cfg ((commandNibble b0).setWidth 8) with
  | none =>
    rw [decodeCommand_unknown _ _ _ (Or.inl hc)] at h
    have := Except.ok.inj h
    subst this
    exact ⟨rfl, Or.inl ⟨rfl, Or.inl rfl⟩⟩
  | some c =>
    cases c with
    | query =>
      rw [decodeCommand_query _ _ _ hc] at h
      have := Except.ok.inj h
      subst this
      exact ⟨rfl, Or.inr (Or.inr (Or.inl ⟨rfl, Or.inl rfl⟩))⟩
    | stop =>
      rw [decodeCommand_stop _ _ _ hc] at h
      have := Except.ok.inj h
      subst this
      exact ⟨rfl, Or.inr (Or.inr (Or.inl ⟨rfl, Or.inr rfl⟩))⟩
    | setParameters =>
      rw [decodeCommand_unknown _ _ _ (Or.inr hc)] at h
      have := Except.ok.inj h
      subst this
      exact ⟨rfl, Or.inl ⟨rfl, Or.inr rfl⟩⟩
    | goTo =>
      rw [decodeCommand_goTo _ _ _ hc] at h
      obtain ⟨hd, ⟨ho, h4⟩ | ⟨b3, b2, b1, h4, h3, h2, h1, ho⟩⟩ := hf true hc h
      · exact ⟨hd, Or.inr (Or.inl ⟨ho, h4, Or.inl rfl⟩)⟩
      · exact ⟨hd, Or.inr (Or.inr (Or.inr ⟨true, b3, b2, b1, h4, h3, h2, h1, rfl, ho⟩))⟩
    | reply =>
      rw [decodeCommand_reply _ _ _ hc] at h
      obtain ⟨hd, ⟨ho, h4⟩ | ⟨b3, b2, b1, h4, h3, h2, h1, ho⟩⟩ := hf false hc h
      · exact ⟨hd, Or.inr (Or.inl ⟨ho, h4, Or.inr rfl⟩)⟩
      · exact ⟨hd, Or.inr (Or.inr (Or.inr ⟨false, b3, b2, b1, h4, h3, h2, h1, rfl, ho⟩))⟩

/-- What a decoding gives, from any DB0: an error before that byte is looked at, or what its command gives. -/
theorem decodeFrom_cases {cfg : Cfg} {etype : Byte} {len : Nat} {db : Nat → Except Fault Byte} {x : Except Fault Byte}
    {m0 : Message} {d : Decoded} (h : decodeFrom cfg etype len db x m0 = .ok d) :
    (etype ≠ cfg.envVld ∧ d = { out := .error .envelopeMismatch, diag := none }) ∨
    (etype = cfg.envVld ∧ len = 0 ∧ d = { out := .error .emptyPayload, diag := none }) ∨
    (etype = cfg.envVld ∧ 1 ≤ len ∧ ∃ b0, x = .ok b0 ∧ decodeCommand cfg len db m0 b0 = .ok d) := by
  by_cases he : etype = cfg.envVld
  · subst he
    by_cases h0 : len = 0
    · subst h0
      rw [decodeFrom_empty] at h
      exact Or.inr (Or.inl ⟨rfl, rfl, (Except.ok.inj h).symm⟩)
    · cases x with
      | error f => unfold decodeFrom at h; rw [if_neg (by simp), if_neg (by omega)] at h; exact nomatch h
      | ok b0 =>
        rw [decodeFrom_command _ _ _ (by omega)] at h
        exact Or.inr (Or.inr ⟨rfl, by omega, b0, rfl, h⟩)
  · rw [decodeFrom_envelope _ _ _ _ he] at h
    exact Or.inl ⟨he, (Except.ok.inj h).symm⟩

end Sys2Proof.Machine
end

