-- ==== Sys2Proof/Laws/PerInstr.lean ====
section
/-! SUPPORT. One statement per instruction: the code it is written in shows the row of the opcode table it is (R61, R55),
with every unused field 0 (R62). -/

namespace Sys2Proof.Laws.TableRow

/-- The row's `op` of a request (R61), none for a payload command. -/
def opField : Instr → Option Nibble
  | .reserved0 => some 0x0
  | .bfz => some 0x1
  | .bfld _ => some 0x2
  | .bfins _ _ _ => some 0x3
  | .bfext _ _ => some 0x4
  | .bfraw => some 0x5
  | .mnew _ => some 0x6
  | .hrd _ => some 0x7
  | .hwr _ _ => some 0x8
  | .getdb _ => some 0x9
  | .setdb _ _ => some 0xA
  | .enc => some 0xB
  | .dec => some 0xC
  | .deca => some 0xD
  | .reservedE => some 0xE
  | .reservedF => some 0xF
  | .queryPositionAndAngle _ | .stop _ | .goToPositionAndAngle _ | .replyPositionAndAngle _ | .setParameters _ => none

/-- The code of a well-formed instruction is a request word with its row's `op`, or the payload byte of its command, whose
low nibble is the configured code. -/
def Statement (i : Instr) : Prop :=
  ∀ cfg : Cfg, i.wf cfg = true →
    (∃ w op, opField i = some op ∧ i.command = none ∧ encode cfg i = .request w ∧ reqOp w = op) ∨
    (∃ db0 c, opField i = none ∧ i.command = some c ∧ encode cfg i = .payload db0 ∧
      (commandNibble db0).setWidth 8 = cfg.code c)

theorem code_lt {cfg : Cfg} {i : Instr} {c : Command} (hc : i.command = some c) (h : i.wf cfg = true) :
    (cfg.code c).toNat < 16 := by
  unfold Instr.wf at h
  rw [hc] at h
  simp only [Bool.and_eq_true, decide_eq_true_eq] at h
  exact h.1

theorem request {i : Instr} {op a b : Nibble} {v : Byte} (ho : opField i = some op) (hc : i.command = none)
    (he : ∀ cfg, encode cfg i = .request (requestWord op a b v)) : Statement i :=
  fun cfg _ => Or.inl ⟨_, op, ho, hc, he cfg, reqOp_requestWord op a b v⟩

theorem payload {i : Instr} {c : Command} {ch : Nibble} (ho : opField i = none) (hc : i.command = some c)
    (he : ∀ cfg, encode cfg i = .payload (encodePayload cfg c ch)) : Statement i :=
  fun cfg h => Or.inr ⟨_, c, ho, hc, he cfg, by
    rw [encodePayload, commandNibble_db0Byte]; exact setWidth_setWidth_of_lt _ (code_lt hc h)⟩

theorem reserved0 : Statement .reserved0 := request rfl rfl fun _ => rfl
theorem bfz : Statement .bfz := request rfl rfl fun _ => rfl
theorem bfld (v : Byte) : Statement (.bfld v) := request rfl rfl fun _ => rfl
theorem bfins (a b : Nibble) (v : Byte) : Statement (.bfins a b v) := request rfl rfl fun _ => rfl
theorem bfext (a b : Nibble) : Statement (.bfext a b) := request rfl rfl fun _ => rfl
theorem bfraw : Statement .bfraw := request rfl rfl fun _ => rfl
theorem mnew (v : Byte) : Statement (.mnew v) := request rfl rfl fun _ => rfl
theorem hrd (a : Nibble) : Statement (.hrd a) := request rfl rfl fun _ => rfl
theorem hwr (a : Nibble) (v : Byte) : Statement (.hwr a v) := request rfl rfl fun _ => rfl
theorem getdb (a : Nibble) : Statement (.getdb a) := request rfl rfl fun _ => rfl
theorem setdb (a : Nibble) (v : Byte) : Statement (.setdb a v) := request rfl rfl fun _ => rfl
theorem enc : Statement .enc := request rfl rfl fun _ => rfl
theorem dec : Statement .dec := request rfl rfl fun _ => rfl
theorem deca : Statement .deca := request rfl rfl fun _ => rfl
theorem reservedE : Statement .reservedE := request rfl rfl fun _ => rfl
theorem reservedF : Statement .reservedF := request rfl rfl fun _ => rfl
theorem queryPositionAndAngle (ch : Nibble) : Statement (.queryPositionAndAngle ch) := payload rfl rfl fun _ => rfl
theorem stop (ch : Nibble) : Statement (.stop ch) := payload rfl rfl fun _ => rfl
theorem goToPositionAndAngle (ch : Nibble) : Statement (.goToPositionAndAngle ch) := payload rfl rfl fun _ => rfl
theorem replyPositionAndAngle (ch : Nibble) : Statement (.replyPositionAndAngle ch) := payload rfl rfl fun _ => rfl
theorem setParameters (ch : Nibble) : Statement (.setParameters ch) := payload rfl rfl fun _ => rfl

end Sys2Proof.Laws.TableRow
end

