-- ==== Sys2Proof/Machine/Script.lean ====
section
/-! DEFINITION. Host scripts: the text of R68 and the pseudo-instructions of R69, assembled to request words. No operation
of the block reads a text. -/

namespace Sys2Proof.Machine

/-- A line of a script, or an operand of it, as its characters. -/
abbrev Text := List Char

/-- Why a line is no request. -/
inductive ScriptError where
  /-- The first word is no mnemonic of R61 or R69. -/
  | unknownMnemonic
  /-- An operand is missing, too many, neither a number nor a name R68 allows there, or too big for its field (R63). -/
  | badOperands
deriving DecidableEq, Repr

/-- The words a line may begin with: the thirteen operations (R61) and the five pseudo-instructions (R69). -/
inductive Mnemonic where
  | bfz | bfld | bfins | bfext | bfraw | mnew | hrd | hwr | getdb | setdb | enc | dec | deca
  | mset | mget | setlen | tload | bfget
deriving DecidableEq, Repr

/-- The mnemonics as they are written. -/
def mnemonicNames : List (Text × Mnemonic) :=
  [("BFZ".toList, .bfz), ("BFLD".toList, .bfld), ("BFINS".toList, .bfins), ("BFEXT".toList, .bfext),
   ("BFRAW".toList, .bfraw), ("MNEW".toList, .mnew), ("HRD".toList, .hrd), ("HWR".toList, .hwr),
   ("GETDB".toList, .getdb), ("SETDB".toList, .setdb), ("ENC".toList, .enc), ("DEC".toList, .dec)] ++
  [("DECA".toList, .deca), ("MSET".toList, .mset), ("MGET".toList, .mget), ("SETLEN".toList, .setlen),
   ("TLOAD".toList, .tload), ("BFGET".toList, .bfget)]

/-- The names of the registers of the map (R68). -/
def registerNames : List (Text × RegName) :=
  [("M.CMD".toList, .mCmd), ("M.POS".toList, .mPos), ("M.ANG".toList, .mAng), ("M.LOCK".toList, .mLock),
   ("M.REPOS".toList, .mRepos), ("T.ETYPE".toList, .tEtype), ("T.LEN".toList, .tLen)]

/-- The names of the commands (R68). -/
def commandNames : List (Text × Command) :=
  [("QUERY".toList, .query), ("STOP".toList, .stop), ("GOTO".toList, .goTo), ("REPLY".toList, .reply),
   ("SETPARAMS".toList, .setParameters)]

/-! Cutting a line into words. -/

/-- Whether a character separates words. -/
def isBlank (c : Char) : Bool := c == ' ' || c == '\t' || c == '\r'

/-- A text without the blanks at its two ends. -/
def trim (t : Text) : Text := ((t.dropWhile isBlank).reverse.dropWhile isBlank).reverse

/-- The parts of a text between the separators. -/
def splitAtChar (sep : Char) : Text → List Text
  | [] => [[]]
  | c :: rest =>
    if c = sep then [] :: splitAtChar sep rest
    else
      match splitAtChar sep rest with
      | [] => [[c]]
      | part :: parts => (c :: part) :: parts

/-- The operands of a text, separated by commas; none in an empty text. -/
def commaList (t : Text) : List Text :=
  if trim t = [] then [] else (splitAtChar ',' t).map trim

/-! Operands. -/

/-- The value of a digit, decimal or hexadecimal. -/
def digitValue (c : Char) : Option Nat :=
  if '0' ≤ c ∧ c ≤ '9' then some (c.toNat - '0'.toNat)
  else if 'a' ≤ c ∧ c ≤ 'f' then some (c.toNat - 'a'.toNat + 10)
  else if 'A' ≤ c ∧ c ≤ 'F' then some (c.toNat - 'A'.toNat + 10)
  else none

/-- The number some digits are in a base, `acc` what stands before them. -/
def digitsValue (base acc : Nat) : Text → Option Nat
  | [] => some acc
  | c :: rest =>
    match digitValue c with
    | some d => if d < base then digitsValue base (acc * base + d) rest else none
    | none => none

/-- A number: decimal, or hexadecimal after `0x` (R68). -/
def numberOf : Text → Option Nat
  | [] => none
  | '0' :: 'x' :: c :: rest => digitsValue 16 0 (c :: rest)
  | c :: rest => digitsValue 10 0 (c :: rest)

/-- An operand of a 4-bit field (R63). -/
def nibbleOperand (t : Text) : Option Nibble :=
  match numberOf t with
  | some n => if n < 16 then some (BitVec.ofNat 4 n) else none
  | none => none

/-- An operand of an 8-bit field (R63). -/
def byteOperand (t : Text) : Option Byte :=
  match numberOf t with
  | some n => if n < 256 then some (BitVec.ofNat 8 n) else none
  | none => none

/-- A register operand: a name, or an index (R68). -/
def registerOperand (t : Text) : Option Nibble :=
  match registerNames.lookup t with
  | some r => some r.index
  | none => nibbleOperand t

/-- A command operand: a name, which stands for the configured code, or a number (R68). -/
def commandOperand (cfg : Cfg) (t : Text) : Option Byte :=
  match commandNames.lookup t with
  | some c => some (cfg.code c)
  | none => byteOperand t

/-- The value written to a register: a command operand where the register is `M.CMD`, a number elsewhere (R68). -/
def valueOperand (cfg : Cfg) (r : Nibble) (t : Text) : Option Byte :=
  if r = RegName.mCmd.index then commandOperand cfg t else byteOperand t

/-- The bytes of `TLOAD`, in wire order in square brackets (R69). -/
def bytesOperand (t : Text) : Option (List Byte) :=
  match trim t with
  | '[' :: rest =>
    match rest.reverse with
    | ']' :: inner => (commaList inner.reverse).mapM byteOperand
    | _ => none
  | _ => none

/-! Lines. -/

/-- The expansion of a pseudo-instruction that is well-formed (R69). -/
def expansion (cfg : Cfg) (p : Pseudo) : Option (List Instr) := if p.wf cfg then some p.expand else none

/-- The requests of a line: its mnemonic, its operands in the order `a`, `b`, `v` of those the operation uses (R68), and
the text they were cut from, in which `TLOAD` has its list. DESIGN CHOICE, safe: `MGET` takes any register of the map, by
name or index, and an index 7 to 15 is an error of the line; R69 leaves its range open (log entry 12). -/
def lineRequests (cfg : Cfg) (m : Mnemonic) (ops : List Text) (text : Text) : Option (List Instr) :=
  match m, ops with
  | .bfz, [] => some [.bfz]
  | .bfld, [v] => do return [.bfld (← byteOperand v)]
  | .bfins, [a, b, v] => do return [.bfins (← nibbleOperand a) (← nibbleOperand b) (← byteOperand v)]
  | .bfext, [a, b] => do return [.bfext (← nibbleOperand a) (← nibbleOperand b)]
  | .bfraw, [] => some [.bfraw]
  | .mnew, [v] => do return [.mnew (← commandOperand cfg v)]
  | .hrd, [a] => do return [.hrd (← registerOperand a)]
  | .hwr, [a, v] => do
    let r ← registerOperand a
    return [.hwr r (← valueOperand cfg r v)]
  | .getdb, [a] => do return [.getdb (← nibbleOperand a)]
  | .setdb, [a, v] => do return [.setdb (← nibbleOperand a) (← byteOperand v)]
  | .enc, [] => some [.enc]
  | .dec, [] => some [.dec]
  | .deca, [] => some [.deca]
  | .mset, [r, v] => do
    let a ← registerOperand r
    expansion cfg (.mset (← regAt a) (← valueOperand cfg a v))
  | .mget, [r] => do expansion cfg (.mget (← regAt (← registerOperand r)))
  | .setlen, [n] => do expansion cfg (.setlen (← byteOperand n))
  | .tload, t :: _ => do
    let etype ← byteOperand t
    expansion cfg (.tload etype (← bytesOperand ((text.dropWhile (· ≠ ',')).drop 1)))
  | .bfget, [o, w] => do expansion cfg (.bfget (← nibbleOperand o) (← nibbleOperand w))
  | _, _ => none

/-- A line of a script: what stands before `;`, a mnemonic and its operands; a line with nothing there has no request
(R68). -/
def assembleLine (cfg : Cfg) (line : Text) : Except ScriptError (List Instr) :=
  match trim (line.takeWhile (· ≠ ';')) with
  | [] => .ok []
  | c :: rest =>
    let name := (c :: rest).takeWhile fun d => !isBlank d
    let text := (c :: rest).dropWhile fun d => !isBlank d
    match mnemonicNames.lookup name with
    | none => .error .unknownMnemonic
    | some m =>
      match lineRequests cfg m (commaList text) text with
      | none => .error .badOperands
      | some is => .ok is

/-- The request words among the codes of some instructions; a line of a script gives no other (R61, R69). -/
def requestWords (cfg : Cfg) : List Instr → List RequestWord
  | [] => []
  | i :: rest =>
    match encode cfg i with
    | .request w => w :: requestWords cfg rest
    | .payload _ => requestWords cfg rest

/-- A host script, one request per line (R68): the request words in issue order. -/
def assemble (cfg : Cfg) (script : Text) : Except ScriptError (List RequestWord) := do
  let lines ← (splitAtChar '\n' script).mapM (assembleLine cfg)
  return requestWords cfg lines.flatten

/-- The host's requests to come, after those already there (R193). -/
def State.issuing (s : State) (ws : List RequestWord) : State := { s with inputs := s.inputs ++ ws.map .request }

end Sys2Proof.Machine
end

