-- ==== Sys2Proof/Tests/Slice0.lean ====
section
/-! SUPPORT. The model's own tests. Expected values are the spec's (`95_test_vectors.md`, or the encoding tables of
`30_encoding.md` for the words); each test names its vector. Then a witness for the hypotheses of each statement. -/

namespace Sys2Proof.Tests

open Sys2Proof.Machine

/-! Helpers. -/

/-- The cells of a payload given in wire order. -/
def cells (i : Nat) : List Byte → Memory
  | [] => []
  | b :: rest => Memory.cell i b ++ cells (i + 1) rest

/-- A block of CFG_DOC with the message of part 2.5 of the vectors, `M = (0xEE, 1, 2, 3, 4)`, and a telegram. -/
def withPayload (etype : Byte) (bytes : List Byte) : State :=
  { State.reset with
    mCmd := 0xEE, mPos := 1, mAng := 2, mLock := 3, mRepos := 4, tEtype := etype,
    tLen := BitVec.ofNat 8 bytes.length, p := cells 0 bytes }

/-- A block of CFG_DOC with a message. -/
def withMessage (cmd pos ang lock repos : Byte) : State :=
  State.reset.setMessage { cmd := cmd, pos := pos, ang := ang, lock := lock, repos := repos }

/-- One step on the request word `w`. -/
def on (s : State) (w : RequestWord) : Host.Outcome State Fault Refusal := step { s with inputs := [.request w] }

/-- What is looked at in a next state. -/
def see (o : Host.Outcome State Fault Refusal) (f : State → List Byte) : Option (List Byte × Option ResponseWord) :=
  match o with
  | .next t => some (f t, t.response.map Response.word)
  | .fault _ => none
  | .refused _ => none

def container (s : State) : List Byte := [s.bf]
def messageOf (s : State) : List Byte := [s.mCmd, s.mPos, s.mAng, s.mLock, s.mRepos]
def telegramOf (s : State) : List Byte :=
  [s.tEtype, s.tLen] ++ (List.range s.tLen.toNat).map fun i => s.p.read i
def nothing (_ : State) : List Byte := []

/-! Well-formedness: an ill-formed term for each check (R6, R55, R69). -/

theorem test_doc_wf : Cfg.doc.wf = true := by decide
theorem test_codes_not_distinct : ({ Cfg.doc with cmdReply := 3 } : Cfg).wf = false := by decide
theorem test_code_not_nibble : ({ Cfg.doc with cmdReply := 16 } : Cfg).wf = false := by decide
theorem test_container_width : ({ Cfg.doc with bfW := 16 } : Cfg).wf = false := by decide
theorem test_pmax_too_small : ({ Cfg.doc with pmax := 4 } : Cfg).wf = false := by decide
theorem test_pmax_too_big : ({ Cfg.doc with pmax := 17 } : Cfg).wf = false := by decide
theorem test_instr_code_not_nibble : Instr.wf { Cfg.doc with cmdStop := 16 } (.stop 0) = false := by decide
theorem test_instr_code_shared : Instr.wf { Cfg.doc with cmdStop := 2 } (.stop 0) = false := by decide
theorem test_mset_telegram_register : Pseudo.wf .doc (.mset .tLen 4) = false := by decide
theorem test_tload_too_long : Pseudo.wf .doc (.tload 0xD2 (List.replicate 15 0)) = false := by decide
theorem test_step_refuses_ill_formed :
    step { State.reset with cfg := { Cfg.doc with pmax := 4 } } = .refused .illFormedConfiguration := by rfl

/-! Decoding: every row of the table, the word written out from its fields `op a b v` (R61, R62), or from `ch`, `cmd` of
DB0 (R51, R55). -/

/-- V-Q2: 0b0000_0001_0010_00000011. -/
theorem test_decode_reserved0 : decodeTableWord 20 0x1203 = some (.reserved0) := by decide
/-- V-X18: 0b0001_1001_1001_00001001. -/
theorem test_decode_bfz : decodeTableWord 20 0x19909 = some (.bfz) := by decide
/-- V-X15: 0b0010_0000_0000_01100101. -/
theorem test_decode_bfld : decodeTableWord 20 0x20065 = some (.bfld 0x65) := by decide
/-- V-I2: 0b0011_0100_0011_00000110. -/
theorem test_decode_bfins : decodeTableWord 20 0x34306 = some (.bfins 4 3 6) := by decide
/-- V-X17: 0b0100_0100_0011_11111111. -/
theorem test_decode_bfext : decodeTableWord 20 0x443ff = some (.bfext 4 3) := by decide
/-- V-X16: 0b0101_0000_0000_00000000. -/
theorem test_decode_bfraw : decodeTableWord 20 0x50000 = some (.bfraw) := by decide
/-- V-Q8: 0b0110_1010_1011_00000010. -/
theorem test_decode_mnew : decodeTableWord 20 0x6ab02 = some (.mnew 2) := by decide
/-- V-Q9: 0b0111_0001_1111_00000000. -/
theorem test_decode_hrd : decodeTableWord 20 0x71f00 = some (.hrd 1) := by decide
/-- V-Q10: 0b1000_0001_0000_00101010. -/
theorem test_decode_hwr : decodeTableWord 20 0x8102a = some (.hwr 1 42) := by decide
/-- V-H19: 0b1001_1101_0000_00000000. -/
theorem test_decode_getdb : decodeTableWord 20 0x9d000 = some (.getdb 13) := by decide
/-- V-H13: 0b1010_0001_0000_00100010. -/
theorem test_decode_setdb : decodeTableWord 20 0xa1022 = some (.setdb 1 0x22) := by decide
/-- V-Q6: 0b1011_0001_0010_00110100. -/
theorem test_decode_enc : decodeTableWord 20 0xb1234 = some (.enc) := by decide
/-- V-Q7: 0b1100_0000_1111_00000000. -/
theorem test_decode_dec : decodeTableWord 20 0xc0f00 = some (.dec) := by decide
/-- P4: 0b1101_0000_0000_00000000. -/
theorem test_decode_deca : decodeTableWord 20 0xd0000 = some (.deca) := by decide
/-- V-Q3: 0b1110_1111_1111_11111111. -/
theorem test_decode_reservedE : decodeTableWord 20 0xeffff = some (.reservedE) := by decide
/-- V-Q5: 0b1111_1111_1111_11111111. -/
theorem test_decode_reservedF : decodeTableWord 20 0xfffff = some (.reservedF) := by decide
/-- V-D3: 0b0000_0011. -/
theorem test_decode_query : decodeTableWord 8 0x3 = some (.queryPositionAndAngle 0) := by decide
/-- V-D5: 0b1111_0001. -/
theorem test_decode_stop : decodeTableWord 8 0xf1 = some (.stop 15) := by decide
/-- V-D18: 0b0010_0010. -/
theorem test_decode_goTo : decodeTableWord 8 0x22 = some (.goToPositionAndAngle 2) := by decide
/-- V-D8b: 0b0011_0100. -/
theorem test_decode_reply : decodeTableWord 8 0x34 = some (.replyPositionAndAngle 3) := by decide
/-- V-D17: 0b0010_0101. -/
theorem test_decode_setParameters : decodeTableWord 8 0x25 = some (.setParameters 2) := by decide
/-- V-D16: 0, 6 and 15 are no command. -/
theorem test_decode_unassigned :
    [0x00, 0x06, 0x0F].map (decodeTableWord 8) = [none, none, none] := by decide
theorem test_decode_too_wide : decodeTableWord 20 0x100000 = none := by decide
/-- The table's 20-bit rows in whole bytes. -/
theorem test_decode_whole_bytes : decodeTableWord 24 0x34306 = some (.bfins 4 3 6) := by decide
/-- R69, P2 steps 1 to 6. -/
theorem test_tload_words : (Pseudo.tload 0xD2 [0x64, 0x00, 0x77, 0x02]).expand.map (encode .doc) =
    [.request 0x850D2, .request 0x86004, .request 0xA3064, .request 0xA2000, .request 0xA1077, .request 0xA0002] := by
  decide

/-- R68's three examples, a comment, a blank line, a command and a register by name (P2 step 9). -/
theorem test_script : (assemble .doc
    "BFINS 4, 3, 6 ; a field\nHWR M.POS, 42\n\n  ENC\nHWR M.CMD, REPLY\nMNEW GOTO".toList).toOption =
    some [0x34306, 0x8102A, 0xB0000, 0x80004, 0x60002] := by decide
/-- R69 with R68's text. -/
theorem test_script_tload : (assemble .doc "TLOAD 0xD2, [0x64, 0x00, 0x77, 0x02]".toList).toOption =
    some [0x850D2, 0x86004, 0xA3064, 0xA2000, 0xA1077, 0xA0002] := by decide
theorem test_script_too_big : assemble .doc "BFINS 4, 3, 256".toList = .error .badOperands := by rfl
theorem test_script_no_mnemonic : assemble .doc "NOP".toList = .error .unknownMnemonic := by rfl

/-! One step each. -/

/-- V-I2. -/
theorem test_bfins_keeps_others : see (on { State.reset with bf := 0x05 } 0x34306) container = some ([0x65], some 0x000) := by decide
/-- V-I12. -/
theorem test_bfins_value_too_big : see (on { State.reset with bf := 0xA5 } 0x30410) container = some ([0xA5], some 0xC00) := by decide
/-- V-X2. -/
theorem test_bfext_field : see (on { State.reset with bf := 0x65 } 0x44300) container = some ([0x65], some 0x006) := by decide
/-- V-X8. -/
theorem test_bfext_out_of_byte : see (on { State.reset with bf := 0x65 } 0x48100) container = some ([0x65], some 0xC00) := by decide
/-- V-X18. -/
theorem test_bfz : see (on { State.reset with bf := 0xED } 0x19909) container = some ([0x00], some 0x000) := by decide
/-- V-X15. -/
theorem test_bfld : see (on { State.reset with bf := 0x01 } 0x20065) container = some ([0x65], some 0x000) := by decide
/-- V-X16. -/
theorem test_bfraw : see (on { State.reset with bf := 0x65 } 0x50000) container = some ([0x65], some 0x065) := by decide
/-- V-H5. -/
theorem test_mnew : see (on (withMessage 9 1 2 3 4) 0x60004) messageOf = some ([4, 127, 127, 0, 0], some 0x000) := by decide
/-- V-H2. -/
theorem test_hrd_drawn : see (on (State.resetWith .doc 0x9C 0x31) 0x70000) messageOf = some ([0x9C, 127, 127, 0, 0], some 0x09C) := by decide
/-- V-H8. -/
theorem test_hrd_no_register : see (on State.reset 0x77000) messageOf = some ([0, 127, 127, 0, 0], some 0xE00) := by decide
/-- V-H6. -/
theorem test_hwr_not_validated : see (on (withMessage 4 127 127 0 0) 0x830C8) messageOf = some ([4, 127, 127, 200, 0], some 0x000) := by decide
/-- V-H10. -/
theorem test_hwr_length_above_capacity : see (on (withPayload 0xD2 [1, 2]) 0x8600F) telegramOf = some ([0xD2, 2, 1, 2], some 0xE00) := by decide
/-- V-H16. -/
theorem test_hwr_length_allocates : see (on (withPayload 0x31 [0x22, 0x11]) 0x86002) telegramOf = some ([0x31, 2, 0, 0], some 0x000) := by decide
/-- V-H15. -/
theorem test_getdb_wire_order : see (on (withPayload 0x31 [0x22, 0x11]) 0x91000) telegramOf = some ([0x31, 2, 0x22, 0x11], some 0x022) := by decide
/-- V-H20. -/
theorem test_getdb_past_the_end : see (on (withPayload 0x31 (List.replicate 14 7)) 0x9E000) nothing = some ([], some 0xE00) := by decide
/-- V-H12. -/
theorem test_setdb_last_byte : see (on (withPayload 0x31 [0, 0]) 0xA0011) telegramOf = some ([0x31, 2, 0, 0x11], some 0x000) := by decide
/-- V-H14. -/
theorem test_setdb_past_the_end : see (on (withPayload 0x31 [0x22, 0x11]) 0xA2033) telegramOf = some ([0x31, 2, 0x22, 0x11], some 0xE00) := by decide
/-- V-E5. -/
theorem test_enc_goTo : see (on (withMessage 2 255 255 1 2) 0xB0000) telegramOf = some ([0xD2, 4, 0xFF, 0xFF, 0x21, 0x02], some 0x000) := by decide
/-- V-E15. -/
theorem test_enc_command_too_big : see (on (withMessage 0x12 0 0 0 0) 0xB0000) telegramOf = some ([0, 0], some 0xC00) := by decide
/-- V-D8b. -/
theorem test_dec_reply : see (on (withPayload 0xD2 [0x32, 0x5A, 0x52, 0x34]) 0xC0000) messageOf = some ([4, 50, 90, 2, 0], some 0x103) := by decide
/-- V-D11. -/
theorem test_dec_type_before_length : see (on (withPayload 0xA5 []) 0xC0000) messageOf = some ([0xEE, 1, 2, 3, 4], some 0x200) := by decide
/-- V-D5. -/
theorem test_deca_stop_in_long_payload : see (on (withPayload 0xD2 [0xAA, 0xBB, 0xCC, 0xF1]) 0xD0000) messageOf = some ([1, 1, 2, 3, 4], some 0x10F) := by decide
/-- V-D19. -/
theorem test_deca_length_with_channel : see (on (withPayload 0xD2 [0x7F, 0x00, 0x32]) 0xD0000) messageOf = some ([0xEE, 1, 2, 3, 4], some 0x703) := by decide
/-- V-Q2. -/
theorem test_reserved0 : see (on { State.reset with bf := 0x65 } 0x01203) container = some ([0x65], some 0xE00) := by decide
/-- V-Q3. -/
theorem test_reservedE : see (on { State.reset with bf := 0x65 } 0xEFFFF) container = some ([0x65], some 0xE00) := by decide
/-- V-Q5. -/
theorem test_reservedF : see (on { State.reset with bf := 0x65 } 0xFFFFF) container = some ([0x65], some 0xE00) := by decide
/-- V-D3, as a reception. -/
theorem test_query_received : see (exec (.queryPositionAndAngle 0) (withPayload 0xD2 [0x03])) messageOf = some ([3, 127, 127, 0, 0], some 0x000) := by decide
/-- V-D5, as a reception. -/
theorem test_stop_received : see (exec (.stop 15) (withPayload 0xD2 [0xAA, 0xBB, 0xCC, 0xF1])) messageOf = some ([1, 127, 127, 0, 0], some 0x10F) := by decide
/-- V-D18, as a reception. -/
theorem test_goTo_received : see (exec (.goToPositionAndAngle 2) (withPayload 0xD2 [0x2A, 0x7F, 0x00, 0x22])) messageOf = some ([2, 42, 127, 0, 0], some 0x102) := by decide
/-- V-D13, as a reception. -/
theorem test_goTo_length : see (exec (.goToPositionAndAngle 0) (withPayload 0xD2 [0x00, 0x2A, 0x7F, 0x00, 0x02])) messageOf = some ([0xEE, 1, 2, 3, 4], some 0x600) := by decide
/-- V-D20, as a reception. -/
theorem test_reply_received : see (exec (.replyPositionAndAngle 0) (withPayload 0xD2 [0xFF, 0x80, 0x00, 0x04])) messageOf = some ([4, 255, 128, 0, 0], some 0x000) := by decide
/-- V-D17, as a reception. -/
theorem test_setParameters_received : see (exec (.setParameters 2) (withPayload 0xD2 [0x25])) messageOf = some ([0xEE, 1, 2, 3, 4], some 0x902) := by decide
/-- R21, R190: a reset gives the drawn bytes and the reset values; R193: the moves left stay. -/
theorem test_reset : step { withPayload 0xD2 [1] with inputs := [.reset 0x9C 0x31, .request 0x10000] } =
    .next { State.resetWith .doc 0x9C 0x31 with inputs := [.request 0x10000] } := by rfl
/-- The log's entry 11. -/
theorem test_idle : step State.reset = .next State.reset := by rfl
theorem test_reset_memory_wf : State.reset.p.wf = true := by decide
/-- The host's way in: a request word, and a payload byte with DEC. -/
theorem test_fetch_request : see (step (State.reset.withFetchWord 24 0x20065)) container = some ([0x65], some 0x000) := by
  decide
theorem test_fetch_payload :
    see (step (State.reset.withFetchWord 8 0x22)) messageOf = some ([2, 0, 0, 0, 0], some 0x102) := by decide
/-- A byte beyond the capacity does not exist; only a length that no run reaches asks for one (R17). -/
theorem test_no_such_byte : exec (.getdb 0) { State.reset with tLen := 15 } = .fault (.noSuchByte 14) := by rfl
/-- R13, R14 with V-E5's and V-E7's messages; the classes of 127, 128 and 42. -/
theorem test_readings : lockReading .doc ⟨2, 255, 255, 1, 2⟩ = some (.instruction 1) ∧
    lockReading .doc ⟨4, 0, 127, 7, 0⟩ = some (.status 7) ∧ meaningful .doc 4 .mRepos = false ∧
    [127, 128, 42].map angleReading = [.keep, .outOfRange, .value 42] := by decide

/-! Witnesses: for each statement with hypotheses, states and operands that meet them all, for each of its clauses, at
the ends of its range. `stopSent` is a one-byte Stop, `goToSent` a GoTo, `replySent` a Reply on channel 15. -/

def stopSent : State := withPayload 0xD2 [0x01]
def goToSent : State := withPayload 0xD2 [0x2A, 0x7F, 0x00, 0x02]
def replySent : State := withPayload 0xD2 [0xFF, 0x00, 0xFF, 0xF4]
def full : State := withPayload 0xD2 (List.replicate 14 0x31)

theorem witness_DecodeOfEncode : Instr.wf .doc (.stop 15) = true ∧ Instr.wf .doc (.bfins 15 15 255) = true := by decide
theorem witness_EncodeOfDecode : Cfg.doc.wf = true ∧ decode .doc (.payload 0xF5) = .ok (.setParameters 15) := ⟨by decide, by rfl⟩
theorem witness_PayloadByteSelectsCommand : Cfg.doc.wf = true ∧ (3 : Nibble).toNat = Cfg.doc.cmdQuery.toNat ∧ (1 : Nibble).toNat = Cfg.doc.cmdStop.toNat ∧
    (2 : Nibble).toNat = Cfg.doc.cmdGoTo.toNat ∧ (4 : Nibble).toNat = Cfg.doc.cmdReply.toNat ∧
    (5 : Nibble).toNat = Cfg.doc.cmdSetParams.toNat ∧
    ∀ c ∈ Command.all, (0 : Nibble).toNat ≠ (Cfg.doc.code c).toNat ∧ (15 : Nibble).toNat ≠ (Cfg.doc.code c).toNat := by decide
theorem witness_BfinsWritesField : ((8 : Nibble).toNat + (0 : Nibble).toNat ≤ 8 ∧ (0 : Byte).toNat < 2 ^ (0 : Nibble).toNat) ∧
    ((0 : Nibble).toNat + (8 : Nibble).toNat ≤ 8 ∧ (255 : Byte).toNat < 2 ^ (8 : Nibble).toNat) ∧
    8 < (8 : Nibble).toNat + (1 : Nibble).toNat ∧ 2 ^ (0 : Nibble).toNat ≤ (1 : Byte).toNat := by decide
theorem witness_BfextReadsField : (8 : Nibble).toNat + (0 : Nibble).toNat ≤ 8 ∧ 8 < (8 : Nibble).toNat + (1 : Nibble).toNat := by decide
theorem witness_InsertBitByBit : (8 + 0 ≤ 8 ∧ (0 : Byte).toNat < 2 ^ 0) ∧ (0 + 8 ≤ 8 ∧ (255 : Byte).toNat < 2 ^ 8) ∧ 8 < 9 + 0 ∧
    2 ^ 3 ≤ (8 : Byte).toNat ∧ 8 ≤ 8 := by decide
theorem witness_ExtractBitByBit : 1 + 7 ≤ 8 ∧ 8 < 1 + 8 ∧ 8 ≤ 8 := by decide
theorem witness_FieldLaws : 4 + 3 ≤ 8 ∧ (7 : Byte).toNat < 2 ^ 3 ∧ 0 + 4 ≤ 8 ∧ (4 + 3 ≤ 0 ∨ 0 + 4 ≤ 4) ∧ (15 : Byte).toNat < 2 ^ 4 ∧
    (4 : Nibble).toNat = 4 ∧ (3 : Nibble).toNat = 3 := by decide
theorem witness_HrdReadsRegister : 6 < (7 : Nibble).toNat ∧ 6 < (15 : Nibble).toNat := by decide
theorem witness_HwrWritesRegister : (14 : Byte).toNat ≤ State.reset.cfg.pmax ∧ State.reset.cfg.pmax < (15 : Byte).toNat ∧ 6 < (7 : Nibble).toNat := by decide
theorem witness_GetdbReadsByte : full.tLen.toNat ≤ full.cfg.pmax ∧ (13 : Nibble).toNat < full.tLen.toNat ∧ full.tLen.toNat ≤ (14 : Nibble).toNat := by decide
theorem witness_SetdbWritesByte : full.tLen.toNat ≤ full.cfg.pmax ∧ full.p.wf = true ∧ (13 : Nibble).toNat < full.tLen.toNat ∧
    full.tLen.toNat ≤ (14 : Nibble).toNat := by decide
theorem witness_SetdbThenGetdb : full.Inv ∧ (13 : Nibble).toNat < full.tLen.toNat ∧ (13 : Nibble) = 13 ∧ (0 : Nibble) ≠ 13 := by decide
theorem witness_TloadReachesEveryTelegram : State.reset.Inv ∧ (List.replicate 14 (7 : Byte)).length ≤ State.reset.cfg.pmax ∧
    ([] : List Byte).length ≤ State.reset.cfg.pmax := by decide
/-- Two blocks that differ in the last response alone answer every read alike. -/
theorem witness_HostObservesWholeState :
    stopSent.Inv ∧ ({ stopSent with response := some (okResponse 9) } : State).Inv ∧
    ∀ i : Instr, (i = .bfraw ∨ ∃ a, i = .hrd a ∨ i = .getdb a) → ∃ t t',
      exec i stopSent = .next t ∧ exec i { stopSent with response := some (okResponse 9) } = .next t' ∧
      t.response = t'.response := by
  refine ⟨by decide, by decide, fun i hi => ?_⟩
  have reads : ∀ a : Nibble,
      (∃ t t', exec (.hrd a) stopSent = .next t ∧
        exec (.hrd a) { stopSent with response := some (okResponse 9) } = .next t' ∧ t.response = t'.response) ∧
      (∃ t t', exec (.getdb a) stopSent = .next t ∧
        exec (.getdb a) { stopSent with response := some (okResponse 9) } = .next t' ∧ t.response = t'.response) := by
    intro a
    obtain ⟨k⟩ := a
    obtain ⟨k, hk⟩ := k
    interval_cases k <;> exact ⟨⟨_, _, rfl, rfl, rfl⟩, ⟨_, _, rfl, rfl, rfl⟩⟩
  rcases hi with rfl | ⟨a, rfl | rfl⟩
  · exact ⟨_, _, rfl, rfl, rfl⟩
  · exact (reads a).1
  · exact (reads a).2
theorem witness_EncQueryAndStop : State.reset.cfg.wf = true ∧ (withMessage 3 0 0 255 255).mCmd = Cfg.doc.cmdQuery ∧
    (withMessage 1 0 0 255 255).mCmd = Cfg.doc.cmdStop := by decide
theorem witness_EncGoTo : (withMessage 2 255 255 7 7).cfg.wf = true ∧ (withMessage 2 255 255 7 7).mCmd = Cfg.doc.cmdGoTo ∧
    (withMessage 2 255 255 7 7).mLock.toNat < 8 ∧ (withMessage 2 255 255 7 7).mRepos.toNat < 8 := by decide
theorem witness_EncReply : (withMessage 4 255 255 7 255).cfg.wf = true ∧ (withMessage 4 255 255 7 255).mCmd = Cfg.doc.cmdReply ∧
    (withMessage 4 255 255 7 255).mLock.toNat < 8 := by decide
theorem witness_EncRefusedCommands : State.reset.cfg.wf = true ∧ (withMessage 5 0 0 0 0).mCmd = Cfg.doc.cmdSetParams ∧
    (withMessage 15 0 0 0 0).mCmd.toNat < 16 ∧ (∀ c ∈ Command.all, (withMessage 15 0 0 0 0).mCmd ≠ Cfg.doc.code c) ∧
    ∀ c ∈ Command.all, (withMessage 0 0 0 0 0).mCmd ≠ Cfg.doc.code c := by decide
theorem witness_EncFieldRange : State.reset.cfg.wf = true ∧ 16 ≤ (withMessage 16 0 0 0 0).mCmd.toNat ∧
    ((withMessage 2 0 0 8 0).mCmd = Cfg.doc.cmdGoTo ∧ 8 ≤ (withMessage 2 0 0 8 0).mLock.toNat) ∧
    ((withMessage 2 0 0 0 8).mCmd = Cfg.doc.cmdGoTo ∧ 8 ≤ (withMessage 2 0 0 0 8).mRepos.toNat) ∧
    ((withMessage 4 0 0 8 0).mCmd = Cfg.doc.cmdReply ∧ 8 ≤ (withMessage 4 0 0 8 0).mLock.toNat) := by decide
/-- Two Replies that differ in the repositioning mode, which a Reply does not carry. -/
theorem witness_EncLeaksNoStaleField :
    (withMessage 4 1 2 3 0).cfg = (withMessage 4 1 2 3 200).cfg ∧ (withMessage 4 1 2 3 0).cfg.wf = true ∧
    (withMessage 4 1 2 3 0).mCmd = (withMessage 4 1 2 3 200).mCmd ∧
    ∀ r, meaningful .doc 4 r = true → (withMessage 4 1 2 3 0).readReg r = (withMessage 4 1 2 3 200).readReg r := by
  refine ⟨by decide, by decide, by decide, fun r => ?_⟩
  cases r <;> decide
theorem witness_EncOutputBounds : State.reset.cfg.wf = true ∧
    (∃ t, exec .enc (withMessage 2 255 255 7 7) = .next t ∧ t.lastOk ∧ t.tLen = 4) ∧
    ∃ t, exec .enc (withMessage 1 0 0 0 0) = .next t ∧ t.lastOk ∧ t.tLen = 1 :=
  ⟨by decide, ⟨_, rfl, by decide, by decide⟩, ⟨_, rfl, by decide, by decide⟩⟩
theorem witness_DecQueryAndStop : stopSent.cfg.wf = true ∧ stopSent.tEtype = stopSent.cfg.envVld ∧ 1 ≤ stopSent.tLen.toNat ∧
    stopSent.tLen.toNat ≤ stopSent.cfg.pmax ∧ stopSent.p.read (stopSent.tLen.toNat - 1) = db0Byte 0 1 ∧
    (1 : Nibble).toNat = stopSent.cfg.cmdStop.toNat ∧
    (withPayload 0xD2 [9, 0xF3]).p.read 1 = db0Byte 15 3 ∧ (3 : Nibble).toNat = Cfg.doc.cmdQuery.toNat := by decide
theorem witness_DecGoTo : goToSent.cfg.wf = true ∧ goToSent.tEtype = goToSent.cfg.envVld ∧ goToSent.tLen = 4 ∧
    goToSent.p.read 3 = db0Byte 0 2 ∧ (2 : Nibble).toNat = goToSent.cfg.cmdGoTo.toNat := by decide
theorem witness_DecReply : replySent.cfg.wf = true ∧ replySent.tEtype = replySent.cfg.envVld ∧ replySent.tLen = 4 ∧
    replySent.p.read 3 = db0Byte 15 4 ∧ (4 : Nibble).toNat = replySent.cfg.cmdReply.toNat := by decide
theorem witness_DecoderErrorPriority : (withPayload 0xA5 []).Inv ∧ (withPayload 0xA5 []).tEtype ≠ Cfg.doc.envVld ∧
    ((withPayload 0xD2 []).tEtype = Cfg.doc.envVld ∧ (withPayload 0xD2 []).tLen = 0) ∧
    ((withPayload 0xD2 [9, 9, 0x32]).p.read 2 = db0Byte 3 2 ∧ (2 : Nibble).toNat = Cfg.doc.cmdGoTo.toNat ∧
      (withPayload 0xD2 [9, 9, 0x32]).tLen ≠ 4) ∧
    ((withPayload 0xD2 [9, 9, 9, 9, 0x34]).p.read 4 = db0Byte 3 4 ∧ (4 : Nibble).toNat = Cfg.doc.cmdReply.toNat ∧
      (withPayload 0xD2 [9, 9, 9, 9, 0x34]).tLen ≠ 4) ∧
    ((withPayload 0xD2 [0x25]).p.read 0 = db0Byte 2 5 ∧ (5 : Nibble).toNat ≠ Cfg.doc.cmdQuery.toNat ∧
      (5 : Nibble).toNat ≠ Cfg.doc.cmdStop.toNat ∧ (5 : Nibble).toNat ≠ Cfg.doc.cmdGoTo.toNat ∧
      (5 : Nibble).toNat ≠ Cfg.doc.cmdReply.toNat) := by decide
theorem witness_DiagnosticAlwaysReported : stopSent.Inv ∧ stopSent.tEtype = stopSent.cfg.envVld ∧ 1 ≤ stopSent.tLen.toNat ∧ full.Inv ∧
    (withPayload 0xA5 [1]).Inv ∧ (withPayload 0xA5 [1]).tEtype ≠ Cfg.doc.envVld ∧
    (withPayload 0xD2 []).Inv ∧ (withPayload 0xD2 []).tLen = 0 := by decide
/-- A GoTo and the same with another channel and DB1 bits 3 and 7 set; a Reply and the same with DB1 bits 6 to 4 set
too. -/
theorem witness_DecodersReadOnlyTheirFields :
    (goToSent.cfg.wf = true ∧ goToSent.tLen.toNat ≤ goToSent.cfg.pmax ∧ 1 ≤ goToSent.tLen.toNat ∧
      commandNibble ((cells 0 [0x2A, 0x7F, 0x88, 0xF2]).read 3) = commandNibble (goToSent.p.read 3) ∧
      (commandNibble (goToSent.p.read 3)).toNat = Cfg.doc.cmdGoTo.toNat ∧
      ((cells 0 [0x2A, 0x7F, 0x88, 0xF2]).read 2).toNat % 8 = (goToSent.p.read 2).toNat % 8 ∧
      ((cells 0 [0x2A, 0x7F, 0x88, 0xF2]).read 2).toNat / 16 % 8 = (goToSent.p.read 2).toNat / 16 % 8) ∧
    (commandNibble ((cells 0 [0xFF, 0x00, 0x07, 0x04]).read 3) = commandNibble (replySent.p.read 3) ∧
      (commandNibble (replySent.p.read 3)).toNat = Cfg.doc.cmdReply.toNat ∧
      ((cells 0 [0xFF, 0x00, 0x07, 0x04]).read 2).toNat % 8 = (replySent.p.read 2).toNat % 8) := by decide
theorem witness_DecIsMnewThenDeca : ∃ t u, exec (.mnew 9) replySent = .next t ∧ exec .deca t = .next u ∧ u.lastOk :=
  ⟨_, _, rfl, rfl, by decide⟩
theorem witness_EncThenDecRoundTrip : (withMessage 2 255 255 7 7).cfg.wf = true ∧ (withMessage 2 255 255 7 7).mLock.toNat ≤ 7 ∧
    (withMessage 2 255 255 7 7).mRepos.toNat ≤ 7 ∧ (withMessage 2 255 255 7 7).mCmd = Cfg.doc.cmdGoTo ∧
    (withMessage 1 0 0 0 0).mCmd = Cfg.doc.cmdStop ∧ (withMessage 3 0 0 0 0).mCmd = Cfg.doc.cmdQuery ∧
    (withMessage 4 0 0 0 0).mCmd = Cfg.doc.cmdReply := by decide
theorem witness_DecThenEncReproduces :
    (goToSent.Inv ∧ ∃ t, exec .dec goToSent = .next t ∧ t.lastOk) ∧
    (replySent.Inv ∧ ∃ t, exec .dec replySent = .next t ∧ t.lastOk) ∧
    (stopSent.Inv ∧ ∃ t, exec .dec stopSent = .next t ∧ t.lastOk) :=
  ⟨⟨by decide, _, rfl, by decide⟩, ⟨by decide, _, rfl, by decide⟩, ⟨by decide, _, rfl, by decide⟩⟩
theorem witness_DecPerformsPayloadCommand : replySent.cfg.wf = true ∧ 1 ≤ replySent.tLen.toNat ∧ replySent.tLen.toNat ≤ replySent.cfg.pmax ∧
    decode replySent.cfg (.payload (replySent.p.read (replySent.tLen.toNat - 1))) = .ok (.replyPositionAndAngle 15) := ⟨by decide, by decide, by decide, by rfl⟩
theorem witness_QueryAndStopReceived : stopSent.cfg.wf = true ∧ stopSent.tEtype = stopSent.cfg.envVld ∧ 1 ≤ stopSent.tLen.toNat := by decide
theorem witness_GoToReceived : goToSent.cfg.wf = true ∧ goToSent.tEtype = goToSent.cfg.envVld ∧ goToSent.tLen = 4 := by decide
theorem witness_ReplyReceived : replySent.cfg.wf = true ∧ replySent.tEtype = replySent.cfg.envVld ∧ replySent.tLen = 4 := by decide
theorem witness_SetParametersReceived : full.cfg.wf = true ∧ full.tEtype = full.cfg.envVld ∧ 1 ≤ full.tLen.toNat := by decide
theorem witness_EveryRequestHasAnOutcome : full.Inv ∧ 7 ≤ (7 : Nibble).toNat ∧ 7 ≤ (15 : Nibble).toNat ∧ full.cfg.pmax < (15 : Byte).toNat ∧
    full.tLen.toNat ≤ (14 : Nibble).toNat := by decide
theorem witness_ErrorsChangeNothing : ∃ t, exec (.hrd 7) goToSent = .next t ∧ ¬ t.lastOk := ⟨_, rfl, by decide⟩
theorem witness_AccessMatrix : ∃ t, exec .enc (withMessage 2 1 2 3 4) = .next t ∧ mayWrite .enc .bf = false :=
  ⟨_, rfl, by decide⟩
theorem witness_ResponseMatrix : replySent.cfg.wf = true ∧ ∃ t r, exec .dec replySent = .next t ∧ t.response = some r ∧
    r.warn = true := ⟨by decide, _, _, rfl, rfl, by decide⟩
theorem witness_ContainerIsTheBitFieldUnits : (∀ (a b : Nibble) (v : Byte), Instr.enc ≠ .bfz ∧ Instr.enc ≠ .bfld v ∧
    Instr.enc ≠ .bfins a b v ∧ Instr.enc ≠ .bfext a b ∧ Instr.enc ≠ .bfraw) ∧
    ∃ t, exec .enc (withMessage 2 1 2 3 4) = .next t := ⟨fun _ _ _ => by simp, _, rfl⟩
theorem witness_ErrorsAreNotLatched : ∃ t, exec .dec full = .next t ∧ t.lastOk ∧
    ∃ u, exec .enc (withMessage 2 0 0 8 0) = .next u ∧ ¬ u.lastOk := ⟨_, rfl, by decide, _, rfl, by decide⟩
theorem witness_ReadsHaveNoSideEffect : (∃ t, exec .bfraw full = .next t) ∧ (∃ t, exec (.hrd 15) full = .next t) ∧
    (∃ t, exec (.getdb 13) full = .next t) ∧ ∃ t, exec (.bfext 1 7) full = .next t :=
  ⟨⟨_, rfl⟩, ⟨_, rfl⟩, ⟨_, rfl⟩, ⟨_, rfl⟩⟩
theorem witness_StepRunsTheDecodedRequest : State.reset.cfg.wf = true ∧ ({ State.reset with inputs := [.request 0x10000] } : State).inputs = .request 0x10000 :: [] ∧
    State.reset.inputs = [] := by decide
theorem witness_ResetState : full.cfg.wf = true ∧ ({ full with inputs := [.reset 0x9C 0x31] } : State).inputs = .reset 0x9C 0x31 :: [] := by decide
theorem witness_IllFormedConfigurationRefused : ({ full with cfg := { Cfg.doc with pmax := 4 } } : State).cfg.wf = false := by decide
theorem witness_ResetMeetsInvariant : Cfg.doc.wf = true ∧ ({ Cfg.doc with pmax := 5 } : Cfg).wf = true ∧ ({ Cfg.doc with pmax := 16 } : Cfg).wf = true := by decide
theorem witness_StepKeepsInvariant : ({ full with inputs := [.request 0x86005] } : State).Inv ∧
    ∃ t, step { full with inputs := [.request 0x86005] } = .next t ∧ t.tLen.toNat ≤ 5 := ⟨by decide, _, rfl, by decide⟩
theorem witness_EveryRunGoesOn : full.Inv ∧ replySent.Inv ∧ State.reset.Inv := by decide
theorem witness_MeaningOfTheMessageRegisters : Cfg.doc.wf = true ∧ Cfg.doc.code .query = 3 ∧ Cfg.doc.code .stop = 1 ∧ (2 : Byte) = Cfg.doc.cmdGoTo ∧
    (4 : Byte) = Cfg.doc.cmdReply ∧ ∀ c ∈ Command.all, c ≠ .setParameters → (5 : Byte) ≠ Cfg.doc.code c := by decide

end Sys2Proof.Tests
end

section
/-! SUPPORT. The encoding family (`30_encoding.md`): the fields of a word written as a number, the instruction each of the
sixteen op codes selects (R61, R62), the error field of a response (R65, R66), and that every operation answers with a
response (R64). -/

namespace Sys2Proof.Machine

/-! The fields of a request word written as a number, and what each op code decodes to. -/

@[simp] theorem reqOp_reqNumber {op : Nat} (h : op < 16) (a b : Nibble) (v : Byte) :
    reqOp (reqNumber op a b v) = BitVec.ofNat 4 op := by
  rw [reqNumber_eq op h, reqOp_requestWord]

@[simp] theorem reqA_reqNumber {op : Nat} (h : op < 16) (a b : Nibble) (v : Byte) : reqA (reqNumber op a b v) = a := by
  rw [reqNumber_eq op h, reqA_requestWord]

@[simp] theorem reqB_reqNumber {op : Nat} (h : op < 16) (a b : Nibble) (v : Byte) : reqB (reqNumber op a b v) = b := by
  rw [reqNumber_eq op h, reqB_requestWord]

@[simp] theorem reqV_reqNumber {op : Nat} (h : op < 16) (a b : Nibble) (v : Byte) : reqV (reqNumber op a b v) = v := by
  rw [reqNumber_eq op h, reqV_requestWord]

section OpCodes

variable (a b : Nibble) (v : Byte)

@[simp] theorem decodeRequest_reserved0 : decodeRequest (reqNumber 0x0 a b v) = .reserved0 := by simp [decodeRequest]
@[simp] theorem decodeRequest_bfz : decodeRequest (reqNumber 0x1 a b v) = .bfz := by simp [decodeRequest]
@[simp] theorem decodeRequest_bfld : decodeRequest (reqNumber 0x2 a b v) = .bfld v := by simp [decodeRequest]
@[simp] theorem decodeRequest_bfins : decodeRequest (reqNumber 0x3 a b v) = .bfins a b v := by simp [decodeRequest]
@[simp] theorem decodeRequest_bfext : decodeRequest (reqNumber 0x4 a b v) = .bfext a b := by simp [decodeRequest]
@[simp] theorem decodeRequest_bfraw : decodeRequest (reqNumber 0x5 a b v) = .bfraw := by simp [decodeRequest]
@[simp] theorem decodeRequest_mnew : decodeRequest (reqNumber 0x6 a b v) = .mnew v := by simp [decodeRequest]
@[simp] theorem decodeRequest_hrd : decodeRequest (reqNumber 0x7 a b v) = .hrd a := by simp [decodeRequest]
@[simp] theorem decodeRequest_hwr : decodeRequest (reqNumber 0x8 a b v) = .hwr a v := by simp [decodeRequest]
@[simp] theorem decodeRequest_getdb : decodeRequest (reqNumber 0x9 a b v) = .getdb a := by simp [decodeRequest]
@[simp] theorem decodeRequest_setdb : decodeRequest (reqNumber 0xA a b v) = .setdb a v := by simp [decodeRequest]
@[simp] theorem decodeRequest_enc : decodeRequest (reqNumber 0xB a b v) = .enc := by simp [decodeRequest]
@[simp] theorem decodeRequest_dec : decodeRequest (reqNumber 0xC a b v) = .dec := by simp [decodeRequest]
@[simp] theorem decodeRequest_deca : decodeRequest (reqNumber 0xD a b v) = .deca := by simp [decodeRequest]
@[simp] theorem decodeRequest_reservedE : decodeRequest (reqNumber 0xE a b v) = .reservedE := by simp [decodeRequest]
@[simp] theorem decodeRequest_reservedF : decodeRequest (reqNumber 0xF a b v) = .reservedF := by simp [decodeRequest]

end OpCodes

/-- A word made of four fields is the word written as a number. -/
theorem encode_eq_reqNumber {cfg : Cfg} {i : Instr} {op : Nat} {a b : Nibble} {v : Byte} (hop : op < 16)
    (h : encode cfg i = .request (requestWord (BitVec.ofNat 4 op) a b v)) :
    encode cfg i = .request (reqNumber op a b v) := by
  rw [h, reqNumber_eq op hop]

/-- Settles O3: each op code decodes from any operands, and the encoder's word has zeroes in the unused fields. -/
theorem unusedFieldsIgnored : Obligations.UnusedFieldsIgnored := by
  intro a b v cfg
  exact ⟨⟨decodeRequest_reserved0 a b v, encode_eq_reqNumber (by decide) rfl⟩,
    ⟨decodeRequest_bfz a b v, encode_eq_reqNumber (by decide) rfl⟩,
    ⟨decodeRequest_bfld a b v, encode_eq_reqNumber (by decide) rfl⟩,
    ⟨decodeRequest_bfins a b v, encode_eq_reqNumber (by decide) rfl⟩,
    ⟨decodeRequest_bfext a b v, encode_eq_reqNumber (by decide) rfl⟩,
    ⟨decodeRequest_bfraw a b v, encode_eq_reqNumber (by decide) rfl⟩,
    ⟨decodeRequest_mnew a b v, encode_eq_reqNumber (by decide) rfl⟩,
    ⟨decodeRequest_hrd a b v, encode_eq_reqNumber (by decide) rfl⟩,
    ⟨decodeRequest_hwr a b v, encode_eq_reqNumber (by decide) rfl⟩,
    ⟨decodeRequest_getdb a b v, encode_eq_reqNumber (by decide) rfl⟩,
    ⟨decodeRequest_setdb a b v, encode_eq_reqNumber (by decide) rfl⟩,
    ⟨decodeRequest_enc a b v, encode_eq_reqNumber (by decide) rfl⟩,
    ⟨decodeRequest_dec a b v, encode_eq_reqNumber (by decide) rfl⟩,
    ⟨decodeRequest_deca a b v, encode_eq_reqNumber (by decide) rfl⟩,
    ⟨decodeRequest_reservedE a b v, encode_eq_reqNumber (by decide) rfl⟩,
    ⟨decodeRequest_reservedF a b v, encode_eq_reqNumber (by decide) rfl⟩⟩

/-! The error field of the response word. -/

/-- `RSP[11:9]` is the error code, whatever the other two fields hold (R65). -/
theorem errField_word (r : Response) : r.word.extractLsb' 9 3 = errCode r.err := by
  unfold Response.word
  ext i hi
  have hdata : ¬ 9 + i < 8 := by omega
  have hwarn : ¬ 9 + i - 8 < 1 := by omega
  have herr : 9 + i - 8 - 1 = i := by omega
  rw [BitVec.getElem_extractLsb', BitVec.getLsbD_append, BitVec.getLsbD_append, if_neg hdata, if_neg hwarn, herr,
    BitVec.getLsbD_eq_getElem hi]

/-- Settles O1: the error field is `errCode`, whose eight values are R66's. -/
theorem responseErrorCodes : Obligations.ResponseErrorCodes := fun _ _ =>
  ⟨errField_word _, errField_word _, errField_word _, errField_word _, errField_word _, errField_word _,
    errField_word _, errField_word _⟩

/-! Every operation answers. -/

/-- Whatever was decoded, a decoder ends with a response. -/
theorem finishDecode_responds (s : State) (d : Decoded) : ∃ u r, finishDecode s d = .next (State.respond u r) := by
  rcases finishDecode_cases s d with ⟨e, -, h⟩ | ⟨m, -, h⟩
  · exact ⟨_, _, h⟩
  · exact ⟨_, _, h⟩

theorem decodeOnto_responds (m0 : Message) {s : State} (hl : s.tLen.toNat ≤ s.cfg.pmax) :
    ∃ u r, decodeOnto m0 s = .next (State.respond u r) := by
  obtain ⟨d, -, h⟩ := decodeOnto_total m0 s hl
  rw [h]
  exact finishDecode_responds s d

theorem receive_responds (db0 : Byte) {s : State} (hl : s.tLen.toNat ≤ s.cfg.pmax) :
    ∃ u r, receive db0 s = .next (State.respond u r) := by
  obtain ⟨d, -, h⟩ := receive_total db0 s hl
  rw [h]
  exact finishDecode_responds s d

theorem execEnc_responds {s : State} (hp : 5 ≤ s.cfg.pmax) : ∃ u r, execEnc s = .next (State.respond u r) := by
  cases he : encodeMessage s.cfg s.message with
  | error e => exact ⟨_, _, execEnc_error he⟩
  | ok q =>
    obtain ⟨m, hm, -, -⟩ := execEnc_ok hp he
    exact ⟨_, _, hm⟩

/-- No instruction is stuck where `T.LEN ≤ PMAX` and ENC's four bytes fit: each ends by giving a response. -/
theorem exec_responds (i : Instr) {s : State} (hp : 5 ≤ s.cfg.pmax) (hl : s.tLen.toNat ≤ s.cfg.pmax) :
    ∃ u r, exec i s = .next (State.respond u r) := by
  cases i with
  | reserved0 | reservedE | reservedF => exact ⟨s, _, rfl⟩
  | bfz | bfld v | bfraw | mnew v => exact ⟨_, _, rfl⟩
  | bfins a b v =>
    rcases execBfins_cases a b v s with ⟨-, h⟩ | ⟨-, -, r, -, h⟩
    · exact ⟨_, _, h⟩
    · exact ⟨_, _, h⟩
  | bfext a b =>
    rcases execBfext_cases a b s with ⟨-, h⟩ | ⟨-, d, -, h⟩
    · exact ⟨_, _, h⟩
    · exact ⟨_, _, h⟩
  | hrd a =>
    rcases execHrd_cases a s with ⟨-, h⟩ | ⟨r, -, h⟩
    · exact ⟨_, _, h⟩
    · exact ⟨_, _, h⟩
  | hwr a v =>
    rcases execHwr_cases a v s with ⟨-, h⟩ | ⟨r, s', -, -, -, h⟩
    · exact ⟨_, _, h⟩
    · exact ⟨_, _, h⟩
  | getdb a =>
    rcases execGetdb_cases a hl with ⟨-, h⟩ | ⟨-, h⟩
    · exact ⟨_, _, h⟩
    · exact ⟨_, _, h⟩
  | setdb a v =>
    rcases execSetdb_cases a v hl with ⟨-, h⟩ | ⟨-, h⟩
    · exact ⟨_, _, h⟩
    · exact ⟨_, _, h⟩
  | enc => exact execEnc_responds hp
  | dec => exact decodeOnto_responds _ hl
  | deca => exact decodeOnto_responds _ hl
  | queryPositionAndAngle ch | stop ch | goToPositionAndAngle ch | replyPositionAndAngle ch | setParameters ch =>
    exact receive_responds _ hl

/-! The causes of BadRequest. -/

/-- The register map has no register from index 7 on (R22). -/
theorem regAt_eq_none {a : Nibble} (h : 7 ≤ a.toNat) : regAt a = none := by
  revert a; decide

theorem execHrd_badRequest {a : Nibble} (h : 7 ≤ a.toNat) (s : State) :
    execHrd a s = .next (s.respond (errorResponse .badRequest)) := by
  unfold execHrd; rw [regAt_eq_none h]; rfl

theorem execHwr_badRequest {a : Nibble} (h : 7 ≤ a.toNat) (v : Byte) (s : State) :
    execHwr a v s = .next (s.respond (errorResponse .badRequest)) := by
  unfold execHwr; rw [regAt_eq_none h]; rfl

/-- A length above the capacity is refused before anything is allocated (R103). -/
theorem execHwr_tLen_badRequest {v : Byte} {s : State} (h : s.cfg.pmax < v.toNat) :
    execHwr 6 v s = .next (s.respond (errorResponse .badRequest)) := by
  rcases execHwr_cases 6 v s with ⟨-, h'⟩ | ⟨r, s', hr, hle, -, -⟩
  · exact h'
  · have hfit : v.toNat ≤ s.cfg.pmax := hle (Option.some.inj hr).symm
    omega

theorem execGetdb_badRequest {a : Nibble} {s : State} (h : s.tLen.toNat ≤ a.toNat) :
    execGetdb a s = .next (s.respond (errorResponse .badRequest)) := by
  unfold execGetdb; rw [if_pos h, raise_eq]

theorem execSetdb_badRequest {a : Nibble} {s : State} (h : s.tLen.toNat ≤ a.toNat) (v : Byte) :
    execSetdb a v s = .next (s.respond (errorResponse .badRequest)) := by
  unfold execSetdb; rw [if_pos h, raise_eq]

/-- Settles O45: the invariant bounds `PMAX` and `T.LEN`, so every instruction responds; and each listed cause is one of
the refusals above. -/
theorem everyRequestHasAnOutcome : Obligations.EveryRequestHasAnOutcome := by
  rintro s ⟨hcfg, hlen, -, -⟩
  refine ⟨fun w => ?_, fun op a b v hcause => ?_⟩
  · obtain ⟨u, r, h⟩ := exec_responds (decodeRequest w) (Cfg.pmax_ge hcfg) hlen
    exact ⟨_, r, h, State.respond_response u r⟩
  · rcases hcause with rfl | rfl | rfl | ⟨rfl | rfl, ha⟩ | ⟨rfl, rfl, hv⟩ | ⟨rfl | rfl, ha⟩
    · rw [decodeRequest_reserved0]; rfl
    · rw [decodeRequest_reservedE]; rfl
    · rw [decodeRequest_reservedF]; rfl
    · rw [decodeRequest_hrd]; exact execHrd_badRequest ha s
    · rw [decodeRequest_hwr]; exact execHwr_badRequest ha v s
    · rw [decodeRequest_hwr]; exact execHwr_tLen_badRequest hv
    · rw [decodeRequest_getdb]; exact execGetdb_badRequest ha
    · rw [decodeRequest_setdb]; exact execSetdb_badRequest ha v

end Sys2Proof.Machine
end

section
/-! SUPPORT. The bit-field family (`40_bitfield.md`): insert and extract bit by bit (R80, R81), then the five operations on
the container (R82 to R86). -/

namespace Sys2Proof.Machine

/-! Insert and extract. -/

/-- A successful insert, by the eight bits of its result. -/
theorem ins_bits (c : Byte) {o w : Nat} {x : Byte} (ho : o + w ≤ 8) (hx : x.toNat < 2 ^ w) : ∃ r : Byte,
    ins c o w x = .ok r ∧ ∀ k, r.getLsbD k = if o ≤ k ∧ k < o + w then x.getLsbD (k - o) else c.getLsbD k :=
  ⟨_, ins_fits c o w x ho hx, getLsbD_inserted c o w x ho hx⟩

/-- Every insert that does not succeed fails in the same way. -/
theorem ins_fails (c : Byte) {o w : Nat} {x : Byte} (h : 8 < o + w ∨ 2 ^ w ≤ x.toNat) :
    ins c o w x = .error .fieldRangeError := by
  rcases h with ho | hx
  · exact ins_out_of_byte c o w x ho
  · exact ins_too_big c o w x hx

/-- A successful extract, by the eight bits of its result. -/
theorem ext_bits (c : Byte) {o w : Nat} (h : o + w ≤ 8) : ∃ d : Byte,
    ext c o w = .ok d ∧ ∀ k, d.getLsbD k = (decide (k < w) && c.getLsbD (o + k)) :=
  ⟨_, ext_fits c o w h, getLsbD_extracted c o w h⟩

/-- A byte with no bit at or above a width fits the width: the converse of `getLsbD_of_lt`. -/
theorem toNat_lt_of_getLsbD {x : Byte} {w : Nat} (h : ∀ k, w ≤ k → x.getLsbD k = false) : x.toNat < 2 ^ w :=
  Nat.lt_pow_two_of_testBit x.toNat h

/-- A field of width 0 has no bit to write. -/
theorem ins_width_zero (c : Byte) {o : Nat} (h : o ≤ 8) : ins c o 0 0 = .ok c := by
  obtain ⟨r, hr, hbits⟩ := ins_bits c (o := o) (w := 0) (x := 0) h (by decide)
  have hrc : r = c := byte_ext r c fun k _ => by rw [hbits, if_neg (by omega)]
  rw [hr, hrc]

/-- A field of width 0 reads as 0. -/
theorem ext_width_zero (c : Byte) {o : Nat} (h : o ≤ 8) : ext c o 0 = .ok 0 := by
  obtain ⟨d, hd, hbits⟩ := ext_bits c (o := o) (w := 0) h
  have hd0 : d = 0 := byte_ext d 0 fun k _ => by simp [hbits]
  rw [hd, hd0]

/-- The field of width 8 is the whole byte. -/
theorem ext_whole (c : Byte) : ext c 0 8 = .ok c := by
  obtain ⟨d, hd, hbits⟩ := ext_bits c (o := 0) (w := 8) (by decide)
  have hdc : d = c := byte_ext d c fun k hk => by rw [hbits, Nat.zero_add, decide_eq_true hk, Bool.true_and]
  rw [hd, hdc]

/-- Settles O13: `ins_bits` read inside and outside the field; the failures are `ins_fails`. -/
theorem insertBitByBit : Obligations.InsertBitByBit := by
  refine ⟨fun c o w x ho hx => ?_, fun c o w x hfail => ins_fails c hfail, fun c o ho => ins_width_zero c ho⟩
  obtain ⟨r, hr, hbits⟩ := ins_bits c ho hx
  refine ⟨r, hr, fun k hk => ?inside, fun k _ hout => ?outside⟩
  case inside => rw [hbits, if_pos (by omega), Nat.add_sub_cancel_left]
  case outside => rw [hbits, if_neg (by omega)]

/-- Settles O14: by the bits of the extracted field, none of which is at or above the width. -/
theorem extractBitByBit : Obligations.ExtractBitByBit := by
  refine ⟨fun c o w h => ?_, ext_out_of_byte, ext_whole, fun c o ho => ext_width_zero c ho⟩
  obtain ⟨d, hd, hbits⟩ := ext_bits c h
  have hlt : d.toNat < 2 ^ w := toNat_lt_of_getLsbD fun k hk => by simp [hbits, hk]
  exact ⟨d, hd, hlt, fun k hk => by simp [hbits, hk]⟩

/-! BFINS and BFEXT: what an operation does with each result of its function. -/

theorem exec_bfins_of_ok {a b : Nibble} {v r : Byte} {s : State} (h : ins s.bf a.toNat b.toNat v = .ok r) :
    exec (.bfins a b v) s = .next (({ s with bf := r } : State).respond (okResponse 0)) := by
  simp [exec, execBfins, h]

theorem exec_bfins_of_error {a b : Nibble} {v : Byte} {e : ErrorCode} {s : State}
    (h : ins s.bf a.toNat b.toNat v = .error e) : exec (.bfins a b v) s = .next (s.respond (errorResponse e)) := by
  simp [exec, execBfins, h]

theorem exec_bfext_of_ok {a b : Nibble} {d : Byte} {s : State} (h : ext s.bf a.toNat b.toNat = .ok d) :
    exec (.bfext a b) s = .next (s.respond (okResponse d)) := by
  simp [exec, execBfext, h]

theorem exec_bfext_of_error {a b : Nibble} {e : ErrorCode} {s : State} (h : ext s.bf a.toNat b.toNat = .error e) :
    exec (.bfext a b) s = .next (s.respond (errorResponse e)) := by
  simp [exec, execBfext, h]

/-- Settles O10: BFINS stores what `ins` gives, whose bits are known, and raises where `ins` fails. -/
theorem bfinsWritesField : Obligations.BfinsWritesField := by
  refine fun s a b v => ⟨decodeRequest_bfins a b v, fun ho hx => ?_,
    fun hfail => exec_bfins_of_error (ins_fails s.bf hfail)⟩
  obtain ⟨r, hr, hbits⟩ := ins_bits s.bf ho hx
  exact ⟨r, exec_bfins_of_ok hr, fun k _ => hbits k⟩

/-- Settles O11: BFEXT responds with what `ext` gives, whose bits are known, and raises where `ext` fails. -/
theorem bfextReadsField : Obligations.BfextReadsField := by
  refine fun s a b v => ⟨decodeRequest_bfext a b v, fun h => ?_,
    fun h => exec_bfext_of_error (ext_out_of_byte s.bf _ _ h)⟩
  obtain ⟨d, hd, hbits⟩ := ext_bits s.bf h
  exact ⟨d, exec_bfext_of_ok hd, fun k _ => hbits k⟩

/-! BFZ, BFLD and BFRAW, which cannot fail. -/

theorem exec_bfz (s : State) : exec .bfz s = .next (({ s with bf := 0 } : State).respond (okResponse 0)) := rfl

theorem exec_bfld (v : Byte) (s : State) :
    exec (.bfld v) s = .next (({ s with bf := v } : State).respond (okResponse 0)) := rfl

theorem exec_bfraw (s : State) : exec .bfraw s = .next (s.respond (okResponse s.bf)) := rfl

/-- Settles O8. -/
theorem bfzZeroesContainer : Obligations.BfzZeroesContainer := fun s a b v => ⟨decodeRequest_bfz a b v, exec_bfz s⟩

/-- Settles O9. -/
theorem bfldLoadsContainer : Obligations.BfldLoadsContainer := fun s a b v => ⟨decodeRequest_bfld a b v, exec_bfld v s⟩

/-- Settles O12: the field of width 8 at offset 0 is the container, so `BFEXT 0, 8` ends as BFRAW does. -/
theorem bfrawReturnsContainer : Obligations.BfrawReturnsContainer := fun s a b v =>
  have hfield : exec (.bfext 0 8) s = .next (s.respond (okResponse s.bf)) := exec_bfext_of_ok (ext_whole s.bf)
  ⟨decodeRequest_bfraw a b v, exec_bfraw s, hfield.trans (exec_bfraw s).symm⟩

end Sys2Proof.Machine
end

section
/-! SUPPORT. The host access family (`41_host_access.md`): MNEW (R101), the register map through HRD and HWR (R102, R103),
the payload bytes through GETDB and SETDB (R104, R105). -/

namespace Sys2Proof.Machine

/-! The frames of a write to the payload buffer and of an allocation. -/

/-- Writing the payload buffer and responding touches `P` alone. -/
theorem sameBut_writeP (s : State) (m : Memory) (r : Response) :
    State.SameBut [.p] s (({ s with p := m } : State).respond r) := by
  refine ⟨fun x hx => ?_, rfl, rfl⟩
  cases x with
  | p => exact absurd (List.mem_singleton.mpr rfl) hx
  | bf | mCmd | mPos | mAng | mLock | mRepos | tEtype | tLen => rfl

/-- Allocating and responding touches `T.LEN` and `P` alone. -/
theorem sameBut_allocate (s : State) (len : Byte) (r : Response) :
    State.SameBut [.tLen, .p] s ((s.allocate len).respond r) := by
  refine ⟨fun x hx => ?_, rfl, rfl⟩
  cases x with
  | tLen | p => exact absurd (by decide) hx
  | bf | mCmd | mPos | mAng | mLock | mRepos | tEtype => rfl

/-! GETDB and SETDB inside the payload. -/

theorem exec_getdb_of_lt {a : Nibble} {s : State} (hl : s.tLen.toNat ≤ s.cfg.pmax) (ha : a.toNat < s.tLen.toNat) :
    exec (.getdb a) s = .next (s.respond (okResponse (s.p.read (s.tLen.toNat - 1 - a.toNat)))) := by
  rcases execGetdb_cases a hl with ⟨hle, -⟩ | ⟨-, h⟩
  · omega
  · exact h

theorem exec_setdb_of_lt {a : Nibble} (v : Byte) {s : State} (hl : s.tLen.toNat ≤ s.cfg.pmax)
    (ha : a.toNat < s.tLen.toNat) : exec (.setdb a v) s =
      .next (({ s with p := s.p.write (s.tLen.toNat - 1 - a.toNat) v } : State).respond (okResponse 0)) := by
  rcases execSetdb_cases a v hl with ⟨hle, -⟩ | ⟨-, h⟩
  · omega
  · exact h

/-- Settles O20: inside the payload SETDB is one `Memory.write`, and `Memory.read_write` says what each byte of a canonical
buffer reads after it. -/
theorem setdbWritesByte : Obligations.SetdbWritesByte := by
  refine fun s a b v hl hwf => ⟨decodeRequest_setdb a b v, fun ha => ?_, fun ha => execSetdb_badRequest ha v⟩
  refine ⟨_, exec_setdb_of_lt v hl ha, ?written, fun i hi => ?others, sameBut_writeP s _ _, rfl⟩
  case written => rw [State.respond_p, Memory.read_write _ _ _ _ hwf, if_pos rfl]
  case others => rw [State.respond_p, Memory.read_write _ _ _ _ hwf, if_neg hi]

/-- Settles O19. -/
theorem getdbReadsByte : Obligations.GetdbReadsByte := fun _ a b v hl =>
  ⟨decodeRequest_getdb a b v, exec_getdb_of_lt hl, execGetdb_badRequest⟩

/-! HRD and HWR at an index of the register map, and MNEW. -/

theorem exec_hrd_of_regAt {a : Nibble} {r : RegName} (h : regAt a = some r) (s : State) :
    exec (.hrd a) s = .next (s.respond (okResponse (s.readReg r))) := by
  simp [exec, execHrd, h]

theorem exec_hwr_of_writeReg {a : Nibble} {r : RegName} {v : Byte} {s t : State} (h : regAt a = some r)
    (hw : s.writeReg r v = .ok t) : exec (.hwr a v) s = .next (t.respond (okResponse 0)) := by
  simp [exec, execHwr, h, hw]

/-- A length that fits the capacity is written by allocating (R37, R103). -/
theorem writeReg_tLen_of_le {v : Byte} {s : State} (h : v.toNat ≤ s.cfg.pmax) :
    s.writeReg .tLen v = .ok (s.allocate v) := if_neg (Nat.not_lt.mpr h)

theorem exec_mnew (v : Byte) (s : State) :
    exec (.mnew v) s = .next ((s.setMessage (freshMessage v)).respond (okResponse 0)) := rfl

/-- Settles O16. -/
theorem mnewMakesFreshMessage : Obligations.MnewMakesFreshMessage := fun s a b v =>
  ⟨decodeRequest_mnew a b v, exec_mnew v s⟩

/-- Settles O17: the register at each of the seven indices of the map, and none at the others. -/
theorem hrdReadsRegister : Obligations.HrdReadsRegister := fun s a b v =>
  ⟨decodeRequest_hrd a b v, exec_hrd_of_regAt (r := .mCmd) rfl s, exec_hrd_of_regAt (r := .mPos) rfl s,
    exec_hrd_of_regAt (r := .mAng) rfl s, exec_hrd_of_regAt (r := .mLock) rfl s,
    exec_hrd_of_regAt (r := .mRepos) rfl s, exec_hrd_of_regAt (r := .tEtype) rfl s,
    exec_hrd_of_regAt (r := .tLen) rfl s, fun h => execHrd_badRequest h s⟩

/-- Settles O18: the six plain registers take any value; `T.LEN` allocates a length that fits and refuses a larger one. -/
theorem hwrWritesRegister : Obligations.HwrWritesRegister := by
  refine fun s a b v => ⟨decodeRequest_hwr a b v,
    exec_hwr_of_writeReg (r := .mCmd) rfl rfl, exec_hwr_of_writeReg (r := .mPos) rfl rfl,
    exec_hwr_of_writeReg (r := .mAng) rfl rfl, exec_hwr_of_writeReg (r := .mLock) rfl rfl,
    exec_hwr_of_writeReg (r := .mRepos) rfl rfl, exec_hwr_of_writeReg (r := .tEtype) rfl rfl,
    fun hfit => ?allocates, execHwr_tLen_badRequest, fun h => execHwr_badRequest h v s⟩
  case allocates =>
    exact ⟨_, exec_hwr_of_writeReg (r := .tLen) rfl (writeReg_tLen_of_le hfit), rfl, Memory.read_nil,
      sameBut_allocate s v _, rfl⟩

end Sys2Proof.Machine
end

section
/-! SUPPORT. The encoder family (`42_encoder.md`): the commands ENC refuses (R123). -/

namespace Sys2Proof.Machine

/-- ENC as an operation raises the encoder's error and changes nothing else (R124). -/
theorem exec_enc_of_error {s : State} {e : ErrorCode} (h : encodeMessage s.cfg s.message = .error e) :
    exec .enc s = .next (s.respond (errorResponse e)) := by
  have henc : exec .enc s = execEnc s := rfl
  rw [henc, execEnc_error h]

/-- The code of SetParameters is a nibble (R6) and classified as that command, which the encoder does not implement. -/
theorem encodeMessage_of_cmd_eq_cmdSetParams {cfg : Cfg} (hcfg : cfg.wf = true) {m : Message}
    (hcmd : m.cmd = cfg.cmdSetParams) : encodeMessage cfg m = .error .notImplemented := by
  have hclass : classify cfg m.cmd = some .setParameters := (classify_iff hcfg _ _).mpr hcmd
  have hnibble : m.cmd.toNat < 16 := by rw [hcmd]; exact Cfg.code_lt hcfg .setParameters
  exact encodeMessage_setParameters hnibble hclass

/-- A nibble that is none of the five codes has no class, so the encoder does not know it. -/
theorem encodeMessage_of_forall_cmd_ne_code {cfg : Cfg} {m : Message} (hnibble : m.cmd.toNat < 16)
    (hne : ∀ c, m.cmd ≠ cfg.code c) : encodeMessage cfg m = .error .unknownCommand :=
  encodeMessage_unknown hnibble ((classify_eq_none_iff cfg m.cmd).mpr hne)

/-- Settles O27: steps 4 and 5 of R120 fail with the two errors, and ENC writes nothing when the encoder fails. -/
theorem encRefusedCommands : Obligations.EncRefusedCommands := fun _ hcfg =>
  ⟨fun hcmd => exec_enc_of_error (encodeMessage_of_cmd_eq_cmdSetParams hcfg hcmd),
    fun hnibble hne => exec_enc_of_error (encodeMessage_of_forall_cmd_ne_code hnibble hne)⟩

end Sys2Proof.Machine
end

section
/-! SUPPORT. The exceptions family (`60_exceptions.md`): the command a nibble of DB0 selects, and the errors of the two
decoders in the order of their tests (R141, R143, R162). -/

namespace Sys2Proof.Machine

/-! The command that the nibble in DB0 selects. -/

/-- A nibble read as a code is that byte exactly when the two are the same number. -/
theorem nibble_setWidth_eq_iff (n : Nibble) (b : Byte) : n.setWidth 8 = b ↔ n.toNat = b.toNat := by
  rw [← BitVec.toNat_inj, BitVec.toNat_setWidth_of_le (by decide)]

theorem classify_db0Byte_iff {cfg : Cfg} (hcfg : cfg.wf = true) (ch n : Nibble) (c : Command) :
    classify cfg ((commandNibble (db0Byte ch n)).setWidth 8) = some c ↔ n.toNat = (cfg.code c).toNat := by
  rw [commandNibble_db0Byte, classify_iff hcfg, nibble_setWidth_eq_iff]

/-- A nibble that is the code of none of the four decodable commands is SetParameters' or no command's (R143). -/
theorem classify_db0Byte_unknown {cfg : Cfg} (hcfg : cfg.wf = true) {ch n : Nibble}
    (hquery : n.toNat ≠ cfg.cmdQuery.toNat) (hstop : n.toNat ≠ cfg.cmdStop.toNat)
    (hgoTo : n.toNat ≠ cfg.cmdGoTo.toNat) (hreply : n.toNat ≠ cfg.cmdReply.toNat) :
    classify cfg ((commandNibble (db0Byte ch n)).setWidth 8) = none ∨
      classify cfg ((commandNibble (db0Byte ch n)).setWidth 8) = some .setParameters := by
  cases hclass : classify cfg ((commandNibble (db0Byte ch n)).setWidth 8) with
  | none => exact Or.inl rfl
  | some c =>
    have hcode : n.toNat = (cfg.code c).toNat := (classify_db0Byte_iff hcfg ch n c).mp hclass
    cases c with
    | query => exact absurd hcode hquery
    | stop => exact absurd hcode hstop
    | goTo => exact absurd hcode hgoTo
    | reply => exact absurd hcode hreply
    | setParameters => exact Or.inr rfl

/-! The errors that are found after DB0 is read. -/

/-- Step 5 of R141 fails: both commands of four bytes test the length before any other byte is read. -/
theorem decodeCommand_lengthMismatch {cfg : Cfg} {len : Nat} (db : Nat → Except Fault Byte) (m0 : Message) {b0 : Byte}
    (hclass : classify cfg ((commandNibble b0).setWidth 8) = some .goTo ∨
      classify cfg ((commandNibble b0).setWidth 8) = some .reply) (hlen : len ≠ 4) :
    decodeCommand cfg len db m0 b0 =
      .ok { out := .error .payloadLengthMismatch, diag := some (channelNibble b0) } := by
  rcases hclass with hgoTo | hreply
  · rw [decodeCommand_goTo _ _ _ hgoTo, decodeF4_mismatch _ _ _ _ _ _ hlen]
  · rw [decodeCommand_reply _ _ _ hreply, decodeF4_mismatch _ _ _ _ _ _ hlen]

/-- An error found once DB0 is read is the decoder's response, with the channel of DB0 (R144). -/
theorem decodeOnto_commandError {m0 : Message} {s : State} {ch n : Nibble} {e : ErrorCode}
    (henv : s.tEtype = s.cfg.envVld) (hpos : 1 ≤ s.tLen.toNat) (hfit : s.tLen.toNat ≤ s.cfg.pmax)
    (hdb0 : s.p.read (s.tLen.toNat - 1) = db0Byte ch n)
    (herr : decodeCommand s.cfg s.tLen.toNat s.readDB m0 (db0Byte ch n) =
      .ok { out := .error e, diag := some (channelNibble (db0Byte ch n)) }) :
    decodeOnto m0 s = .next (s.respond (diagnosed (some e) (some ch))) := by
  rw [decodeOnto_command m0 henv hpos hfit, hdb0, herr, channelNibble_db0Byte]
  rfl

/-- DEC and DECA differ in the message they start from alone (R145, R146). -/
theorem exec_decoder_eq_decodeOnto {i : Instr} (hi : i = .dec ∨ i = .deca) (s : State) :
    ∃ m0, exec i s = decodeOnto m0 s := by
  rcases hi with rfl | rfl
  · exact ⟨freshMessage s.mCmd, rfl⟩
  · exact ⟨s.message, rfl⟩

/-- Settles O34: none of the four errors depends on the message a decoder starts from; the first two are found before DB0
is read, the last two by the command in DB0. -/
theorem decoderErrorPriority : Obligations.DecoderErrorPriority := by
  intro s i hi hcfg hfit
  obtain ⟨m0, hexec⟩ := exec_decoder_eq_decodeOnto hi s
  rw [hexec]
  refine ⟨decodeOnto_envelope m0, fun henv hlen => decodeOnto_empty m0 henv (congrArg BitVec.toNat hlen),
    fun ch n henv hpos hdb0 => ⟨fun hcmd hlen => ?mismatch, fun hquery hstop hgoTo hreply => ?unknown⟩⟩
  case mismatch =>
    have hclass := hcmd.imp (classify_db0Byte_iff hcfg ch n .goTo).mpr (classify_db0Byte_iff hcfg ch n .reply).mpr
    have hlen4 : s.tLen.toNat ≠ 4 := fun h => hlen (BitVec.eq_of_toNat_eq h)
    exact decodeOnto_commandError henv hpos hfit hdb0 (decodeCommand_lengthMismatch s.readDB m0 hclass hlen4)
  case unknown =>
    have hclass := classify_db0Byte_unknown hcfg (ch := ch) hquery hstop hgoTo hreply
    exact decodeOnto_commandError henv hpos hfit hdb0 (decodeCommand_unknown _ s.readDB m0 hclass)

end Sys2Proof.Machine
end

section
/-! SUPPORT. Decoding and encoding as inverses of each other in both code spaces (`30_encoding.md` Parts A and B), and the
response word as a number (R65). -/

namespace Sys2Proof.Machine

/-! The payload commands: one constructor for each command, on a channel. -/

/-- An instruction of the payload rows is its command on some channel. -/
theorem command_eq_some {i : Instr} {c : Command} (h : i.command = some c) : ∃ ch, i = payloadInstr ch c := by
  cases i with
  | queryPositionAndAngle ch | stop ch | goToPositionAndAngle ch | replyPositionAndAngle ch | setParameters ch =>
    cases h
    exact ⟨ch, rfl⟩
  | reserved0 | bfz | bfld | bfins | bfext | bfraw | mnew | hrd | hwr | getdb | setdb | enc | dec | deca | reservedE
  | reservedF => exact nomatch h

@[simp] theorem command_payloadInstr (ch : Nibble) (c : Command) : (payloadInstr ch c).command = some c := by
  cases c <;> rfl

@[simp] theorem encode_payloadInstr (cfg : Cfg) (ch : Nibble) (c : Command) :
    encode cfg (payloadInstr ch c) = .payload (encodePayload cfg c ch) := by
  cases c <;> rfl

@[simp] theorem exec_payloadInstr (ch : Nibble) (c : Command) (s : State) :
    exec (payloadInstr ch c) s = receive (encodePayload s.cfg c ch) s := by
  cases c <;> rfl

/-- A request is written in a word with its row's `op`, which decodes to it (R61). -/
theorem encode_request {i : Instr} (h : i.command = none) (cfg : Cfg) :
    ∃ w, encode cfg i = .request w ∧ Laws.TableRow.opField i = some (reqOp w) ∧ decodeRequest w = i := by
  cases i with
  | reserved0 | bfz | bfld | bfins | bfext | bfraw | mnew | hrd | hwr | getdb | setdb | enc | dec | deca | reservedE
  | reservedF => exact ⟨_, rfl, by simp [Laws.TableRow.opField], by simp [decodeRequest]⟩
  | queryPositionAndAngle | stop | goToPositionAndAngle | replyPositionAndAngle | setParameters => exact nomatch h

/-- Every request word decodes to the instruction of the row its `op` selects (R61, R64). -/
theorem opField_decodeRequest (w : RequestWord) : Laws.TableRow.opField (decodeRequest w) = some (reqOp w) := by
  unfold decodeRequest
  generalize reqOp w = op
  obtain ⟨⟨k, hk⟩⟩ := op
  interval_cases k <;> rfl

theorem command_decodeRequest (w : RequestWord) : (decodeRequest w).command = none := by
  cases hc : (decodeRequest w).command with
  | none => rfl
  | some c =>
    obtain ⟨ch, hi⟩ := command_eq_some hc
    have hop := opField_decodeRequest w
    rw [hi] at hop
    cases c <;> exact nomatch hop

/-- A payload byte that decodes names a command of the configuration, on the byte's channel. -/
theorem decodePayload_eq_ok {cfg : Cfg} {db0 : Byte} {i : Instr} (h : decodePayload cfg db0 = .ok i) :
    ∃ c, classify cfg ((commandNibble db0).setWidth 8) = some c ∧ i = payloadInstr (channelNibble db0) c := by
  unfold decodePayload at h
  cases hc : classify cfg ((commandNibble db0).setWidth 8) with
  | none => rw [hc] at h; exact nomatch h
  | some c => rw [hc] at h; exact ⟨c, rfl, (Except.ok.inj h).symm⟩

theorem decodePayload_of_classify {cfg : Cfg} {db0 : Byte} {c : Command}
    (h : classify cfg ((commandNibble db0).setWidth 8) = some c) :
    decodePayload cfg db0 = .ok (payloadInstr (channelNibble db0) c) := by
  unfold decodePayload; rw [h]

/-- The byte a payload command is encoded as is the byte it was decoded from. -/
theorem encodePayload_of_classify {cfg : Cfg} {db0 : Byte} {c : Command}
    (h : classify cfg ((commandNibble db0).setWidth 8) = some c) :
    encodePayload cfg c (channelNibble db0) = db0 := by
  have hnibble : (cfg.code c).setWidth 4 = commandNibble db0 := by
    rw [← classify_some h, BitVec.setWidth_setWidth_of_le _ (by decide), BitVec.setWidth_eq]
  rw [encodePayload, hnibble, db0Byte_nibbles]

/-- The byte DB0 of a payload command selects that command. -/
theorem classify_encodePayload {cfg : Cfg} (hcfg : cfg.wf = true) (c : Command) (ch : Nibble) :
    classify cfg ((commandNibble (encodePayload cfg c ch)).setWidth 8) = some c := by
  rw [commandNibble_encodePayload hcfg, classify_code hcfg]

/-- A code that no other command has is classified as its command, under any configuration. -/
theorem classify_of_unique {cfg : Cfg} {c : Command} (h : ∀ d, d = c ∨ cfg.code d ≠ cfg.code c) :
    classify cfg (cfg.code c) = some c := by
  cases hc : classify cfg (cfg.code c) with
  | none => exact absurd rfl (classify_none hc c)
  | some d =>
    rcases h d with rfl | hne
    · rfl
    · exact absurd (classify_some hc).symm hne

/-- What well-formedness says of a payload command: its code is a nibble that selects it alone. -/
theorem command_code_of_wf {cfg : Cfg} {i : Instr} {c : Command} (hc : i.command = some c) (h : i.wf cfg = true) :
    (cfg.code c).toNat < 16 ∧ classify cfg (cfg.code c) = some c := by
  refine ⟨Laws.TableRow.code_lt hc h, classify_of_unique fun d => ?_⟩
  unfold Instr.wf at h
  rw [hc] at h
  simp only [Bool.and_eq_true, List.all_eq_true, Bool.or_eq_true, decide_eq_true_eq] at h
  exact h.2 d (by cases d <;> decide)

/-- Settles O5: a request word's fields read back as they were written; a payload command's code is a nibble that selects
it alone. -/
theorem decodeOfEncode : Obligations.DecodeOfEncode := by
  intro cfg i hwf
  cases hc : i.command with
  | none =>
    obtain ⟨w, hw, -, hi⟩ := encode_request hc cfg
    rw [hw]
    exact congrArg Except.ok hi
  | some c =>
    obtain ⟨hlt, hclass⟩ := command_code_of_wf hc hwf
    obtain ⟨ch, rfl⟩ := command_eq_some hc
    have hnibble : (commandNibble (encodePayload cfg c ch)).setWidth 8 = cfg.code c := by
      rw [encodePayload, commandNibble_db0Byte, setWidth_setWidth_of_lt _ hlt]
    rw [encode_payloadInstr, decode, decodePayload_of_classify (hnibble ▸ hclass), channelNibble_encodePayload]

/-- Settles O6: a payload byte is its two nibbles; a request word and the word of its instruction select the same row. -/
theorem encodeOfDecode : Obligations.EncodeOfDecode := by
  refine fun cfg _ => ⟨fun db0 i hdec => ?payload, fun w => ?request⟩
  case payload =>
    obtain ⟨c, hclass, rfl⟩ := decodePayload_eq_ok hdec
    rw [encode_payloadInstr, encodePayload_of_classify hclass]
  case request =>
    obtain ⟨w', hw', hop, hdec⟩ := encode_request (command_decodeRequest w) cfg
    exact ⟨w', hw', Option.some.inj (hop.symm.trans (opField_decodeRequest w)), hdec⟩

/-- A command nibble that is a command's code selects that command (R55). -/
theorem decode_db0Byte_of_code {cfg : Cfg} (hcfg : cfg.wf = true) (ch : Nibble) {n : Nibble} {c : Command}
    (h : n.toNat = (cfg.code c).toNat) : decode cfg (.payload (db0Byte ch n)) = .ok (payloadInstr ch c) := by
  rw [decode, decodePayload_of_classify ((classify_db0Byte_iff hcfg ch n c).mpr h), channelNibble_db0Byte]

/-- Settles O7. -/
theorem payloadByteSelectsCommand : Obligations.PayloadByteSelectsCommand := by
  refine fun cfg ch n hcfg => ⟨decode_db0Byte_of_code (c := .query) hcfg ch,
    decode_db0Byte_of_code (c := .stop) hcfg ch, decode_db0Byte_of_code (c := .goTo) hcfg ch, decode_db0Byte_of_code (c := .reply) hcfg ch,
    decode_db0Byte_of_code (c := .setParameters) hcfg ch, fun hne => ?_⟩
  have hnone : classify cfg ((commandNibble (db0Byte ch n)).setWidth 8) = none := by
    rw [commandNibble_db0Byte, classify_eq_none_iff]
    exact fun c h => hne c ((nibble_setWidth_eq_iff n _).mp h)
  rw [decode, decodePayload, hnone, commandNibble_db0Byte]

/-- Settles O2: appending bit vectors is adding at disjoint powers of two. -/
theorem responseWordLayout : Obligations.ResponseWordLayout := by
  intro r
  rw [Response.word, BitVec.toNat_append, BitVec.toNat_append, ← Nat.shiftLeft_add_eq_or_of_lt r.data.isLt,
    ← Nat.shiftLeft_add_eq_or_of_lt (BitVec.ofBool r.warn).isLt, BitVec.toNat_ofBool]
  simp only [Nat.shiftLeft_eq]
  omega

/-- Settles O4. -/
theorem specWordsDecode : Obligations.SpecWordsDecode := by
  unfold Obligations.SpecWordsDecode
  decide

end Sys2Proof.Machine
end

section
/-! SUPPORT. Everything an operation can do to a block, said once: `Effect` has one constructor per way an operation ends,
`exec_effect` says that no operation ends in another way. The access matrix (R23), the response matrix (R161), the frame
of an error (R164) and the invariant (R16, R17) are read off it. -/

namespace Sys2Proof.Machine

/-- Whether an instruction decodes a payload, which alone can warn (R65). -/
def Decodes (i : Instr) : Prop := i = .dec ∨ i = .deca ∨ i.command ≠ none

/-- The ways an operation ends, from state `s`. What the response matrix allows is claimed under a well-formed
configuration only, where a payload command's byte selects that command. -/
inductive Effect (s : State) : Instr → State → Prop
  /-- An error: the response is all that is new. -/
  | failed {i : Instr} {e : ErrorCode} {r : Response} (herr : r.err = some e)
      (hreport : s.cfg.wf = true → mayReport i e = true) (hwarn : r.warn = true → Decodes i) :
      Effect s i (s.respond r)
  /-- A read: the response is all that is new. -/
  | read {i : Instr} (d : Byte) (hsucceed : maySucceed i = true) : Effect s i (s.respond (okResponse d))
  /-- The container takes a byte. -/
  | container {i : Instr} (b : Byte) (hsucceed : maySucceed i = true) (hwrite : mayWrite i .bf = true) :
      Effect s i (({ s with bf := b } : State).respond (okResponse 0))
  /-- The five message registers take a message. -/
  | message {i : Instr} (m : Message) {r : Response} (herr : r.err = none)
      (hsucceed : s.cfg.wf = true → maySucceed i = true) (hwarn : r.warn = true → Decodes i)
      (hwrite : ∀ x ∈ [Piece.mCmd, .mPos, .mAng, .mLock, .mRepos], mayWrite i x = true) :
      Effect s i ((s.setMessage m).respond r)
  /-- HWR writes the register at its index. -/
  | register {a : Nibble} {v : Byte} {r : RegName} {u : State} (hreg : regAt a = some r)
      (hwrite : s.writeReg r v = .ok u) : Effect s (.hwr a v) (u.respond (okResponse 0))
  /-- SETDB writes one byte of the payload. -/
  | payloadByte {a : Nibble} {v : Byte} (ha : a.toNat < s.tLen.toNat) :
      Effect s (.setdb a v)
        (({ s with p := s.p.write (s.tLen.toNat - 1 - a.toNat) v } : State).respond (okResponse 0))
  /-- ENC replaces the telegram by the encoded payload. -/
  | telegram {q : List Byte} {m : Memory} (henc : encodeMessage s.cfg s.message = .ok q)
      (hmem : 5 ≤ s.cfg.pmax → m.wf = true ∧ ∀ j, m.read j = q.getD j 0) :
      Effect s .enc
        (({ s with tEtype := s.cfg.envVld, tLen := BitVec.ofNat 8 q.length, p := m } : State).respond (okResponse 0))

/-! How each group of operations ends. -/

theorem effect_of_eq {i : Instr} {s t u : State} (h : Host.Outcome.next (φ := Fault) (ρ := Refusal) t = .next u)
    (ht : Effect s i t) : Effect s i u := by
  cases h
  exact ht

theorem effect_badRequest {i : Instr} (h : mayReport i .badRequest = true) (s : State) :
    Effect s i (s.respond (errorResponse .badRequest)) :=
  .failed rfl (fun _ => h) nofun

theorem execSetdb_effect {a : Nibble} {v : Byte} {s t : State} (h : execSetdb a v s = .next t) :
    Effect s (.setdb a v) t := by
  unfold execSetdb at h
  split at h
  · exact effect_of_eq h (effect_badRequest rfl s)
  · next ha =>
    obtain ⟨u, hu, ht⟩ := orFault_next h
    obtain ⟨-, rfl⟩ := memWrite_next hu
    exact effect_of_eq ht (.payloadByte (by omega))

theorem execGetdb_effect {a : Nibble} {s t : State} (h : execGetdb a s = .next t) : Effect s (.getdb a) t := by
  unfold execGetdb at h
  split at h
  · exact effect_of_eq h (effect_badRequest rfl s)
  · obtain ⟨d, -, ht⟩ := orFault_next h
    exact effect_of_eq ht (.read d rfl)

theorem execEnc_effect {s t : State} (h : execEnc s = .next t) : Effect s .enc t := by
  rcases execEnc_next h with ⟨e, he, rfl⟩ | ⟨q, m, henc, rfl⟩
  · refine .failed rfl (fun _ => ?_) nofun
    rcases he with rfl | rfl | rfl <;> rfl
  · refine .telegram henc fun hp => ?_
    obtain ⟨m', hexec, hwf, hread⟩ := execEnc_ok hp henc
    rw [hexec] at h
    have hm : m' = m := congrArg State.p (Host.Outcome.next.inj h)
    exact hm ▸ ⟨hwf, hread⟩

/-- What a decoding can give, by what is known of the byte DB0 once it is read: the error of steps 1 and 2, an error of
the command in DB0, or a message, for a command that has one (R141). -/
theorem decodeFrom_out {cfg : Cfg} {etype : Byte} {len : Nat} {db : Nat → Except Fault Byte} {x : Except Fault Byte}
    {m0 : Message} {d : Decoded} (h : decodeFrom cfg etype len db x m0 = .ok d) :
    d.out = .error .envelopeMismatch ∨ d.out = .error .emptyPayload ∨
    ∃ b0, x = .ok b0 ∧
      ((d.out = .error .unknownCommand ∧ (classify cfg ((commandNibble b0).setWidth 8) = none ∨
        classify cfg ((commandNibble b0).setWidth 8) = some .setParameters)) ∨
      (d.out = .error .payloadLengthMismatch ∧ (classify cfg ((commandNibble b0).setWidth 8) = some .goTo ∨
        classify cfg ((commandNibble b0).setWidth 8) = some .reply)) ∨
      ∃ m c, d.out = .ok m ∧ classify cfg ((commandNibble b0).setWidth 8) = some c ∧ c ≠ .setParameters) := by
  rcases decodeFrom_cases h with ⟨-, rfl⟩ | ⟨-, -, rfl⟩ | ⟨-, -, b0, hx, hd⟩
  · exact Or.inl rfl
  · exact Or.inr (Or.inl rfl)
  · refine Or.inr (Or.inr ⟨b0, hx, ?_⟩)
    obtain ⟨-, ⟨ho, hc⟩ | ⟨ho, -, hc⟩ | ⟨ho, hc⟩ | ⟨goTo, b3, b2, b1, -, -, -, -, hc, ho⟩⟩ := decodeCommand_cases hd
    · exact Or.inl ⟨ho, hc⟩
    · exact Or.inr (Or.inl ⟨ho, hc⟩)
    · rcases hc with hc | hc
      · exact Or.inr (Or.inr ⟨_, _, ho, hc, by decide⟩)
      · exact Or.inr (Or.inr ⟨_, _, ho, hc, by decide⟩)
    · exact Or.inr (Or.inr ⟨_, _, ho, hc, by cases goTo <;> decide⟩)

/-- A decoder ends by writing the whole message or by an error, with the diagnostic either way. -/
theorem finishDecode_effect {i : Instr} {s t : State} {d : Decoded} (hdec : Decodes i)
    (hwrite : ∀ x ∈ [Piece.mCmd, .mPos, .mAng, .mLock, .mRepos], mayWrite i x = true)
    (hreport : ∀ e, d.out = .error e → s.cfg.wf = true → mayReport i e = true)
    (hsucceed : ∀ m, d.out = .ok m → s.cfg.wf = true → maySucceed i = true) (h : finishDecode s d = .next t) :
    Effect s i t := by
  rcases finishDecode_cases s d with ⟨e, ho, hf⟩ | ⟨m, ho, hf⟩
  · exact effect_of_eq (hf.symm.trans h) (.failed rfl (hreport e ho) fun _ => hdec)
  · exact effect_of_eq (hf.symm.trans h) (.message m rfl (hsucceed m ho) (fun _ => hdec) hwrite)

theorem execDecoder_effect {i : Instr} (hi : i = .dec ∨ i = .deca) {m0 : Message} {s t : State}
    (h : decodeOnto m0 s = .next t) : Effect s i t := by
  obtain ⟨d, hd, ht⟩ := orFault_next h
  have hreport : ∀ e, d.out = .error e → mayReport i e = true := by
    intro e ho
    have he : e = .envelopeMismatch ∨ e = .emptyPayload ∨ e = .payloadLengthMismatch ∨ e = .unknownCommand := by
      rcases decodeFrom_out hd with h' | h' | ⟨b0, -, ⟨h', -⟩ | ⟨h', -⟩ | ⟨m, c, h', -⟩⟩ <;>
        cases ho.symm.trans h'
      · exact Or.inl rfl
      · exact Or.inr (Or.inl rfl)
      · exact Or.inr (Or.inr (Or.inr rfl))
      · exact Or.inr (Or.inr (Or.inl rfl))
    rcases hi with rfl | rfl <;> rcases he with rfl | rfl | rfl | rfl <;> rfl
  rcases hi with rfl | rfl
  · exact finishDecode_effect (Or.inl rfl) (by decide) (fun e ho _ => hreport e ho) (fun _ _ _ => rfl) ht
  · exact finishDecode_effect (Or.inr (Or.inl rfl)) (by decide) (fun e ho _ => hreport e ho) (fun _ _ _ => rfl) ht

theorem receive_effect {ch : Nibble} {c : Command} {s t : State} (h : receive (encodePayload s.cfg c ch) s = .next t) :
    Effect s (payloadInstr ch c) t := by
  obtain ⟨d, hd, ht⟩ := orFault_next h
  refine finishDecode_effect (Or.inr (Or.inr (by simp))) (by cases c <;> simp [payloadInstr, mayWrite])
    (fun e ho hcfg => ?reports) (fun m ho hcfg => ?succeeds) ht
  case reports =>
    rcases decodeFrom_out hd with h' | h' | ⟨b0, hb, ⟨h', hc⟩ | ⟨h', hc⟩ | ⟨m, c', h', -⟩⟩ <;>
      cases ho.symm.trans h'
    · cases c <;> rfl
    · cases c <;> rfl
    · cases hb
      rw [classify_encodePayload hcfg] at hc
      rcases hc with hc | hc <;> cases hc
      rfl
    · cases hb
      rw [classify_encodePayload hcfg] at hc
      rcases hc with hc | hc <;> cases hc <;> rfl
  case succeeds =>
    rcases decodeFrom_out hd with h' | h' | ⟨b0, hb, ⟨h', -⟩ | ⟨h', -⟩ | ⟨m, c', h', hc, hne⟩⟩ <;>
      cases ho.symm.trans h'
    cases hb
    rw [classify_encodePayload hcfg] at hc
    cases hc
    cases c with
    | setParameters => exact absurd rfl hne
    | query | stop | goTo | reply => rfl

/-- The inversion of `exec`: an operation that answers a next state ends in one of the ways of `Effect`. -/
theorem exec_effect {i : Instr} {s t : State} (h : exec i s = .next t) : Effect s i t := by
  cases i with
  | reserved0 | reservedE | reservedF => exact effect_of_eq h (effect_badRequest rfl s)
  | bfz => exact effect_of_eq h (.container 0 rfl rfl)
  | bfld v => exact effect_of_eq h (.container v rfl rfl)
  | bfins a b v =>
    rcases execBfins_cases a b v s with ⟨-, h'⟩ | ⟨-, -, r, -, h'⟩
    · exact effect_of_eq (h'.symm.trans h) (.failed rfl (fun _ => rfl) nofun)
    · exact effect_of_eq (h'.symm.trans h) (.container r rfl rfl)
  | bfext a b =>
    rcases execBfext_cases a b s with ⟨-, h'⟩ | ⟨-, d, -, h'⟩
    · exact effect_of_eq (h'.symm.trans h) (.failed rfl (fun _ => rfl) nofun)
    · exact effect_of_eq (h'.symm.trans h) (.read d rfl)
  | bfraw => exact effect_of_eq h (.read s.bf rfl)
  | mnew v => exact effect_of_eq h (.message (freshMessage v) rfl (fun _ => rfl) nofun (by simp [mayWrite]))
  | hrd a =>
    rcases execHrd_cases a s with ⟨-, h'⟩ | ⟨r, -, h'⟩
    · exact effect_of_eq (h'.symm.trans h) (effect_badRequest rfl s)
    · exact effect_of_eq (h'.symm.trans h) (.read _ rfl)
  | hwr a v =>
    rcases execHwr_cases a v s with ⟨-, h'⟩ | ⟨r, u, hreg, -, hwrite, h'⟩
    · exact effect_of_eq (h'.symm.trans h) (effect_badRequest rfl s)
    · exact effect_of_eq (h'.symm.trans h) (.register hreg hwrite)
  | getdb a => exact execGetdb_effect h
  | setdb a v => exact execSetdb_effect h
  | enc => exact execEnc_effect h
  | dec => exact execDecoder_effect (Or.inl rfl) h
  | deca => exact execDecoder_effect (Or.inr rfl) h
  | queryPositionAndAngle ch => exact receive_effect (c := .query) h
  | stop ch => exact receive_effect (c := .stop) h
  | goToPositionAndAngle ch => exact receive_effect (c := .goTo) h
  | replyPositionAndAngle ch => exact receive_effect (c := .reply) h
  | setParameters ch => exact receive_effect (c := .setParameters) h

/-! What may be written, what may be responded, and what an error leaves. -/

/-- An operation that answers with an error ended as `Effect.failed`. -/
theorem Effect.eq_respond_of_not_lastOk {i : Instr} {s t : State} (h : Effect s i t) (herr : ¬ t.lastOk) :
    ∃ r, t = s.respond r := by
  cases h with
  | failed _ _ _ => exact ⟨_, rfl⟩
  | message m hnone => exact absurd (congrArg some hnone) herr
  | read | container | register | payloadByte | telegram => exact absurd rfl herr

/-- Settles O47. -/
theorem errorsChangeNothing : Obligations.ErrorsChangeNothing := by
  intro i s t h herr
  obtain ⟨r, rfl⟩ := (exec_effect h).eq_respond_of_not_lastOk herr
  rfl

/-- Settles O49. -/
theorem responseMatrix : Obligations.ResponseMatrix := by
  intro i s t hcfg h
  cases exec_effect h with
  | failed herr hreport hwarn =>
    exact ⟨_, rfl, fun e he => Option.some.inj (herr.symm.trans he) ▸ hreport hcfg,
      fun hnone => absurd (herr.symm.trans hnone) (by simp), hwarn⟩
  | message m hnone hsucceed hwarn _ =>
    exact ⟨_, rfl, fun e he => absurd (hnone.symm.trans he) (by simp), fun _ => hsucceed hcfg, hwarn⟩
  | read d hsucceed | container b hsucceed _ => exact ⟨_, rfl, nofun, fun _ => hsucceed, nofun⟩
  | register | payloadByte | telegram => exact ⟨_, rfl, nofun, fun _ => rfl, nofun⟩

/-- Pieces a matrix row does not give are the same when the pieces that changed are all in the row. -/
theorem sameBut_of_mayWrite {i : Instr} {s t : State} {xs : List Piece} (h : State.SameBut xs s t)
    (hwrite : ∀ x ∈ xs, mayWrite i x = true) :
    (∀ x : Piece, mayWrite i x = false → x.Same s t) ∧ t.cfg = s.cfg ∧ t.inputs = s.inputs := by
  obtain ⟨hsame, hcfg, hinputs⟩ := h
  refine ⟨fun x hx => hsame x fun hmem => ?_, hcfg, hinputs⟩
  rw [hwrite x hmem] at hx
  exact nomatch hx

theorem sameBut_respond (s : State) (r : Response) : State.SameBut [] s (s.respond r) :=
  ⟨fun x _ => by
    cases x with
    | p => exact fun _ => rfl
    | bf | mCmd | mPos | mAng | mLock | mRepos | tEtype | tLen => rfl, rfl, rfl⟩

theorem sameBut_writeBf (s : State) (b : Byte) (r : Response) :
    State.SameBut [.bf] s (({ s with bf := b } : State).respond r) := by
  refine ⟨fun x hx => ?_, rfl, rfl⟩
  cases x with
  | bf => exact absurd (by decide) hx
  | p => exact fun _ => rfl
  | mCmd | mPos | mAng | mLock | mRepos | tEtype | tLen => rfl

/-- Writing the message and responding touches the five message registers alone. -/
theorem sameBut_setMessage (s : State) (m : Message) (r : Response) :
    State.SameBut [.mCmd, .mPos, .mAng, .mLock, .mRepos] s ((s.setMessage m).respond r) := by
  refine ⟨fun x hx => ?_, rfl, rfl⟩
  cases x with
  | mCmd | mPos | mAng | mLock | mRepos => exact absurd (by decide) hx
  | p => exact fun _ => rfl
  | bf | tEtype | tLen => rfl

/-- Replacing the telegram and the last response touches the telegram registers alone. -/
theorem sameBut_writeTelegram (s : State) (etype len : Byte) (m : Memory) (r : Option Response) :
    State.SameBut [.tEtype, .tLen, .p] s { s with tEtype := etype, tLen := len, p := m, response := r } := by
  refine ⟨fun x hx => ?_, rfl, rfl⟩
  cases x with
  | tEtype | tLen | p => exact absurd (by decide) hx
  | bf | mCmd | mPos | mAng | mLock | mRepos => rfl

/-- Writing a register of the map that is not `T.LEN` touches that register alone. -/
theorem sameBut_writeReg {r : RegName} (hr : r ≠ .tLen) {s u : State} {v : Byte} (h : s.writeReg r v = .ok u)
    (resp : Response) : State.SameBut [RegName.piece r] s (u.respond resp) := by
  cases r with
  | tLen => exact absurd rfl hr
  | mCmd | mPos | mAng | mLock | mRepos | tEtype =>
    cases h
    refine ⟨fun x hx => ?_, rfl, rfl⟩
    cases x <;> simp_all [Piece.Same, RegName.piece]

theorem writeReg_tLen_eq_ok {s u : State} {v : Byte} (h : s.writeReg .tLen v = .ok u) :
    v.toNat ≤ s.cfg.pmax ∧ u = s.allocate v := by
  by_cases hfit : v.toNat ≤ s.cfg.pmax
  · rw [writeReg_tLen_of_le hfit] at h
    exact ⟨hfit, (Except.ok.inj h).symm⟩
  · have hfail : s.writeReg .tLen v = .error .badRequest := if_pos (by omega)
    exact nomatch hfail.symm.trans h

/-- The matrix lets HWR write the register at its index. -/
theorem mayWrite_hwr {a : Nibble} {r : RegName} (h : regAt a = some r) (v : Byte) :
    mayWrite (.hwr a v) (RegName.piece r) = true := by
  unfold mayWrite
  cases r <;> simp [h, RegName.piece]

/-- Settles O48: each way an operation ends has its frame, and the matrix row gives every piece outside the frame. -/
theorem accessMatrix : Obligations.AccessMatrix := by
  intro i s t h
  cases exec_effect h with
  | failed => exact sameBut_of_mayWrite (sameBut_respond s _) nofun
  | read => exact sameBut_of_mayWrite (sameBut_respond s _) nofun
  | container b _ hwrite => exact sameBut_of_mayWrite (sameBut_writeBf s b _) (by simpa using hwrite)
  | message m _ _ _ hwrite => exact sameBut_of_mayWrite (sameBut_setMessage s m _) hwrite
  | payloadByte => exact sameBut_of_mayWrite (sameBut_writeP s _ _) (by simp [mayWrite])
  | telegram => exact sameBut_of_mayWrite (sameBut_writeTelegram s _ _ _ _) (by decide)
  | @register a v r u hreg hwrite =>
    by_cases hr : r = .tLen
    · subst hr
      obtain ⟨-, rfl⟩ := writeReg_tLen_eq_ok hwrite
      exact sameBut_of_mayWrite (sameBut_allocate s v _) (by simp [mayWrite, hreg])
    · exact sameBut_of_mayWrite (sameBut_writeReg hr hwrite _) (by simpa using mayWrite_hwr hreg v)

/-! The invariant. -/

/-- Every way an operation ends keeps the invariant: only the writes of `T.LEN`, SETDB and ENC touch what it
speaks of. -/
theorem Effect.keepsInv {i : Instr} {s t : State} (hs : s.Inv) (h : Effect s i t) : t.Inv := by
  obtain ⟨hcfg, hlen, hwf, hbound⟩ := id hs
  cases h with
  | failed | read | container | message => exact hs
  | @register a v r u hreg hwrite =>
    cases r with
    | tLen =>
      obtain ⟨hfit, rfl⟩ := writeReg_tLen_eq_ok hwrite
      exact ⟨hcfg, hfit, rfl, rfl⟩
    | mCmd | mPos | mAng | mLock | mRepos | tEtype =>
      cases hwrite
      exact hs
  | @payloadByte a v ha =>
    have hbelow : s.tLen.toNat - 1 - a.toNat < s.tLen.toNat := by omega
    exact ⟨hcfg, hlen, Memory.write_wf _ _ _ hwf, Memory.write_bounded _ _ _ _ hbelow hbound⟩
  | @telegram q m henc hmem =>
    have hp : 5 ≤ s.cfg.pmax := Cfg.pmax_ge hcfg
    obtain ⟨hmwf, hread⟩ := hmem hp
    have hq : q.length ≤ 4 := by rcases encodeMessage_length henc with h | h <;> omega
    have htLen : (BitVec.ofNat 8 q.length).toNat = q.length := by rw [BitVec.toNat_ofNat]; omega
    refine ⟨hcfg, ?_, hmwf, Memory.bounded_of_read m _ hmwf fun j hj => ?_⟩
    · simp only [State.respond_tLen, State.respond_cfg, htLen]; omega
    · simp only [State.respond_tLen, htLen] at hj
      rw [hread, List.getD_eq_default _ _ hj]

theorem exec_keepsInv {i : Instr} {s t : State} (hs : s.Inv) (h : exec i s = .next t) : t.Inv :=
  (exec_effect h).keepsInv hs

theorem resetWith_inv {cfg : Cfg} (hcfg : cfg.wf = true) (c e : Byte) : (State.resetWith cfg c e).Inv :=
  ⟨hcfg, Nat.zero_le _, rfl, rfl⟩

/-- Everything a step of a block can be: idle, the next request performed, or a reset. -/
theorem step_cases {s : State} (hcfg : s.cfg.wf = true) :
    (s.inputs = [] ∧ step s = .next s) ∨
    (∃ w rest, s.inputs = .request w :: rest ∧ step s = exec (decodeRequest w) { s with inputs := rest }) ∨
    (∃ c e rest, s.inputs = .reset c e :: rest ∧
      step s = .next { State.resetWith s.cfg c e with inputs := rest }) := by
  unfold step takeTurn
  rw [if_pos hcfg]
  cases hin : s.inputs with
  | nil => exact Or.inl ⟨rfl, rfl⟩
  | cons x rest =>
    cases x with
    | request w => exact Or.inr (Or.inl ⟨w, rest, rfl, rfl⟩)
    | reset c e => exact Or.inr (Or.inr ⟨c, e, rest, rfl, rfl⟩)

/-- A step from a state of a block goes on, and to a state of a block. -/
theorem step_next_inv {s : State} (hs : s.Inv) : ∃ t, step s = .next t ∧ t.Inv := by
  obtain ⟨hcfg, hlen, -, -⟩ := id hs
  rcases step_cases hcfg with ⟨-, h⟩ | ⟨w, rest, -, h⟩ | ⟨c, e, rest, -, h⟩
  · exact ⟨s, h, hs⟩
  · obtain ⟨u, r, hexec⟩ := exec_responds (decodeRequest w) (s := { s with inputs := rest }) (Cfg.pmax_ge hcfg) hlen
    exact ⟨_, h.trans hexec, exec_keepsInv (s := { s with inputs := rest }) hs hexec⟩
  · exact ⟨_, h, resetWith_inv hcfg c e⟩

/-- Settles O57: the step lemma, and the bound on the cells says that `P` reads 0 from `T.LEN` on. -/
theorem stepKeepsInvariant : Obligations.StepKeepsInvariant := by
  intro s t hs h
  obtain ⟨u, hu, hinv⟩ := step_next_inv hs
  cases hu.symm.trans h
  obtain ⟨-, -, -, hbound⟩ := id hinv
  exact ⟨hinv, fun i hi => Memory.read_of_bounded _ _ _ hi hbound⟩

/-- Settles O58, by induction on the number of steps. -/
theorem everyRunGoesOn : Obligations.EveryRunGoesOn := by
  intro s n
  induction n generalizing s with
  | zero => exact fun hs => ⟨s, rfl, hs⟩
  | succ n ih =>
    intro hs
    obtain ⟨u, hu, hinv⟩ := step_next_inv hs
    obtain ⟨t, ht, htinv⟩ := ih u hinv
    exact ⟨t, (core_run_next hu n).trans ht, htinv⟩

/-- Settles O56. -/
theorem resetMeetsInvariant : Obligations.ResetMeetsInvariant :=
  ⟨resetWith_inv (cfg := .doc) (by decide) 0 0, fun _ c e hcfg => resetWith_inv hcfg c e⟩

/-- Settles O53. -/
theorem stepRunsTheDecodedRequest : Obligations.StepRunsTheDecodedRequest := by
  refine fun s hcfg => ⟨fun w rest hin => ?_, fun hin => ?_⟩
  · rcases step_cases hcfg with ⟨h, -⟩ | ⟨w', rest', h, hstep⟩ | ⟨c, e, rest', h, -⟩ <;> cases h.symm.trans hin
    exact hstep
  · rcases step_cases hcfg with ⟨-, hstep⟩ | ⟨w', rest', h, -⟩ | ⟨c, e, rest', h, -⟩
    · exact hstep
    · exact nomatch h.symm.trans hin
    · exact nomatch h.symm.trans hin

/-- Settles O54. -/
theorem resetState : Obligations.ResetState := by
  refine ⟨fun cfg c e => ⟨rfl, rfl, rfl, rfl, rfl, rfl, rfl, rfl, fun _ => rfl, rfl⟩, fun s c e rest hcfg hin => ?_,
    0, 0, rfl⟩
  rcases step_cases hcfg with ⟨h, -⟩ | ⟨w, rest', h, -⟩ | ⟨c', e', rest', h, hstep⟩ <;> cases h.symm.trans hin
  exact hstep

/-- "Pairwise distinct" (R6) as Mathlib has it. -/
theorem allDistinct_iff_nodup (codes : List Byte) : allDistinct codes = true ↔ codes.Nodup := by
  induction codes with
  | nil => simp [allDistinct]
  | cons c rest ih => simp [allDistinct, ih]

theorem codes_eq_map (cfg : Cfg) : cfg.codes = Command.all.map cfg.code := rfl

/-- The five codes stand in one list without repetition exactly when no two commands share one. -/
theorem allDistinct_codes_iff (cfg : Cfg) :
    allDistinct cfg.codes = true ↔ ∀ c d : Command, c ≠ d → cfg.code c ≠ cfg.code d := by
  have hall : ∀ c, c ∈ Command.all := fun c => by cases c <;> decide
  have hnodup : Command.all.Nodup := by decide
  rw [allDistinct_iff_nodup, codes_eq_map, List.nodup_map_iff_inj_on hnodup]
  exact ⟨fun h c d hne hcode => hne (h c (hall c) d (hall d) hcode),
    fun h c _ d _ hcode => Decidable.byContradiction fun hne => h c d hne hcode⟩

/-- Settles O55. -/
theorem illFormedConfigurationRefused : Obligations.IllFormedConfigurationRefused := by
  refine ⟨fun cfg => ?_, fun s hcfg => ?_⟩
  · simp only [Cfg.wf_iff, allDistinct_codes_iff, Nat.lt_succ_iff]
  · unfold step
    rw [hcfg]
    rfl

end Sys2Proof.Machine
end

section
/-! SUPPORT. What no operation looks at: the container outside the bit-field unit (R11) and the last response (R20, R165).
Both are one commutation: writing the two fields before an operation is writing the container after it. -/

namespace Sys2Proof.Machine

/-- The five operations of the bit-field unit (R11). -/
def usesContainer : Instr → Bool
  | .bfz | .bfld _ | .bfins _ _ _ | .bfext _ _ | .bfraw => true
  | .reserved0 | .mnew _ | .hrd _ | .hwr _ _ | .getdb _ | .setdb _ _ | .enc | .dec | .deca | .reservedE | .reservedF
  | .queryPositionAndAngle _ | .stop _ | .goToPositionAndAngle _ | .replyPositionAndAngle _ | .setParameters _ => false

/-- Another container and another last response. -/
def State.withUnseen (s : State) (x : Byte) (r : Option Response) : State := { s with bf := x, response := r }

/-- Another container. -/
def State.withBf (s : State) (x : Byte) : State := { s with bf := x }

@[simp] theorem State.withBf_self (s : State) : s.withBf s.bf = s := rfl

/-- A change of the next state of an outcome. -/
def mapNext (f : State → State) : Host.Outcome State Fault Refusal → Host.Outcome State Fault Refusal
  | .next t => .next (f t)
  | .fault e => .fault e
  | .refused e => .refused e

theorem withUnseen_memWriteList (x : Byte) (r : Option Response) (q : List Byte) (s : State) (i : Nat) :
    (s.withUnseen x r).memWriteList i q = (s.memWriteList i q).map (·.withUnseen x r) := by
  induction q generalizing s i with
  | nil => rfl
  | cons b rest ih =>
    unfold State.memWriteList State.memWrite
    by_cases hi : i < s.cfg.pmax
    · have hi' : i < (s.withUnseen x r).cfg.pmax := hi
      rw [if_pos hi, if_pos hi']
      exact ih { s with p := s.p.write i b } (i + 1)
    · have hi' : ¬ i < (s.withUnseen x r).cfg.pmax := hi
      rw [if_neg hi, if_neg hi']
      rfl

theorem withUnseen_finishDecode (x : Byte) (r : Option Response) (s : State) (d : Decoded) :
    finishDecode (s.withUnseen x r) d = mapNext (·.withBf x) (finishDecode s d) := by
  unfold finishDecode
  cases d.out <;> rfl

theorem withUnseen_orFault_finishDecode (x : Byte) (r : Option Response) (s : State) (d : Except Fault Decoded) :
    orFault d (finishDecode (s.withUnseen x r)) = mapNext (·.withBf x) (orFault d (finishDecode s)) := by
  cases d with
  | error f => rfl
  | ok d => exact withUnseen_finishDecode x r s d

theorem withUnseen_execHwr (a : Nibble) (v x : Byte) (r : Option Response) (s : State) :
    execHwr a v (s.withUnseen x r) = mapNext (·.withBf x) (execHwr a v s) := by
  unfold execHwr
  cases regAt a with
  | none => rfl
  | some n =>
    cases n with
    | mCmd | mPos | mAng | mLock | mRepos | tEtype => rfl
    | tLen =>
      by_cases hv : v.toNat ≤ s.cfg.pmax
      · simp only [writeReg_tLen_of_le hv, writeReg_tLen_of_le (s := s.withUnseen x r) hv]
        rfl
      · have hfail : ∀ u : State, u.cfg = s.cfg → u.writeReg .tLen v = .error .badRequest :=
          fun u hu => if_pos (by rw [hu]; omega)
        simp only [hfail s rfl, hfail (s.withUnseen x r) rfl]
        rfl

theorem withUnseen_execSetdb (a : Nibble) (v x : Byte) (r : Option Response) (s : State) :
    execSetdb a v (s.withUnseen x r) = mapNext (·.withBf x) (execSetdb a v s) := by
  unfold execSetdb
  have hwrite : (s.withUnseen x r).writeDB a.toNat v = (s.writeDB a.toNat v).map (·.withUnseen x r) := by
    unfold State.writeDB State.memWrite
    by_cases hi : s.dbPos a.toNat < s.cfg.pmax
    · rw [if_pos hi]
      exact if_pos hi
    · rw [if_neg hi]
      exact if_neg hi
  rw [hwrite]
  by_cases ha : a.toNat ≥ s.tLen.toNat
  · rw [if_pos ha]
    exact if_pos ha
  · rw [if_neg ha]
    refine (if_neg ha).trans ?_
    cases s.writeDB a.toNat v <;> rfl

theorem withUnseen_execGetdb (a : Nibble) (x : Byte) (r : Option Response) (s : State) :
    execGetdb a (s.withUnseen x r) = mapNext (·.withBf x) (execGetdb a s) := by
  unfold execGetdb
  by_cases ha : a.toNat ≥ s.tLen.toNat
  · rw [if_pos ha]
    exact if_pos ha
  · rw [if_neg ha]
    refine (if_neg ha).trans ?_
    have hread : (s.withUnseen x r).readDB a.toNat = s.readDB a.toNat := rfl
    rw [hread]
    cases s.readDB a.toNat <;> rfl

theorem withUnseen_execEnc (x : Byte) (r : Option Response) (s : State) :
    execEnc (s.withUnseen x r) = mapNext (·.withBf x) (execEnc s) := by
  unfold execEnc
  have hmessage : encodeMessage (s.withUnseen x r).cfg (s.withUnseen x r).message = encodeMessage s.cfg s.message := rfl
  rw [hmessage]
  cases encodeMessage s.cfg s.message with
  | error e => rfl
  | ok q =>
    have hwrite := withUnseen_memWriteList x r q
      (({ s with tEtype := s.cfg.envVld } : State).allocate (BitVec.ofNat 8 q.length)) 0
    refine (congrArg (orFault · (succeed 0)) hwrite).trans ?_
    dsimp only
    cases (({ s with tEtype := s.cfg.envVld } : State).allocate (BitVec.ofNat 8 q.length)).memWriteList 0 q <;> rfl

/-- An operation outside the bit-field unit does not look at the container, and none looks at the last response. -/
theorem exec_withUnseen {i : Instr} (hi : usesContainer i = false) (x : Byte) (r : Option Response) (s : State) :
    exec i (s.withUnseen x r) = mapNext (·.withBf x) (exec i s) := by
  cases i with
  | bfz | bfld | bfins | bfext | bfraw => exact nomatch hi
  | reserved0 | reservedE | reservedF | mnew => rfl
  | hrd a =>
    simp only [exec, execHrd]
    cases regAt a with
    | none => rfl
    | some n => cases n <;> rfl
  | hwr a v => exact withUnseen_execHwr a v x r s
  | getdb a => exact withUnseen_execGetdb a x r s
  | setdb a v => exact withUnseen_execSetdb a v x r s
  | enc => exact withUnseen_execEnc x r s
  | dec | deca | queryPositionAndAngle | stop | goToPositionAndAngle | replyPositionAndAngle | setParameters =>
    exact withUnseen_orFault_finishDecode x r s _

theorem mayWrite_bf_of_not_usesContainer {i : Instr} (hi : usesContainer i = false) : mayWrite i .bf = false := by
  cases i with
  | bfz | bfld | bfins | bfext | bfraw => exact nomatch hi
  | hwr a v =>
    cases hreg : regAt a with
    | none => simp [mayWrite, hreg]
    | some r => cases r <;> simp [mayWrite, hreg, RegName.piece]
  | reserved0 | mnew | hrd | getdb | setdb | enc | dec | deca | reservedE | reservedF | queryPositionAndAngle | stop
  | goToPositionAndAngle | replyPositionAndAngle | setParameters => rfl

/-- Outside the bit-field unit the container stays as it is. -/
theorem exec_keeps_bf {i : Instr} (hi : usesContainer i = false) {s t : State} (h : exec i s = .next t) :
    t.bf = s.bf :=
  (accessMatrix i s t h).1 .bf (mayWrite_bf_of_not_usesContainer hi)

/-- Settles O50: the commutation, with the last response left as it was. -/
theorem containerIsTheBitFieldUnits : Obligations.ContainerIsTheBitFieldUnits := by
  intro i s t x hi h
  have hunit : usesContainer i = false := by
    cases i with
    | bfz | bfraw => exact absurd (hi 0 0 0) (by simp)
    | bfld v => exact absurd (hi 0 0 v) (by simp)
    | bfins a b v => exact absurd (hi a b v) (by simp)
    | bfext a b => exact absurd (hi a b 0) (by simp)
    | reserved0 | mnew | hrd | hwr | getdb | setdb | enc | dec | deca | reservedE | reservedF | queryPositionAndAngle
    | stop | goToPositionAndAngle | replyPositionAndAngle | setParameters => rfl
  refine ⟨exec_keeps_bf hunit h, ?_⟩
  have hexec := exec_withUnseen hunit x s.response s
  rw [h] at hexec
  exact hexec

/-- No operation looks at the last response (R20). -/
theorem exec_withResponse (i : Instr) (s : State) (r : Option Response) :
    exec i { s with response := r } = exec i s := by
  cases hi : usesContainer i with
  | true =>
    cases i with
    | bfz | bfld | bfraw => rfl
    | bfins a b v => simp only [exec, execBfins]; cases ins s.bf a.toNat b.toNat v <;> rfl
    | bfext a b => simp only [exec, execBfext]; cases ext s.bf a.toNat b.toNat <;> rfl
    | reserved0 | mnew | hrd | hwr | getdb | setdb | enc | dec | deca | reservedE | reservedF | queryPositionAndAngle
    | stop | goToPositionAndAngle | replyPositionAndAngle | setParameters => exact nomatch hi
  | false =>
    refine (exec_withUnseen hi s.bf r s).trans ?_
    cases h : exec i s with
    | next t => exact congrArg Host.Outcome.next (exec_keeps_bf hi h ▸ State.withBf_self t)
    | fault f => rfl
    | refused f => rfl

/-- Settles O51: an operation that reported an error left a state that differs in the last response alone. -/
theorem errorsAreNotLatched : Obligations.ErrorsAreNotLatched := by
  refine ⟨exec_withResponse, fun i j s t h herr => ?_⟩
  rw [errorsChangeNothing i s t h herr]
  exact exec_withResponse j s _

/-- An operation with an empty row of the access matrix changes nothing but the response. -/
theorem Effect.eq_respond_of_writes_nothing {i : Instr} {s t : State} (h : Effect s i t)
    (hi : ∀ x, mayWrite i x = false) : ∃ r, t = s.respond r := by
  have contra : ∀ x, mayWrite i x ≠ true := fun x hx => nomatch (hi x).symm.trans hx
  cases h with
  | failed | read => exact ⟨_, rfl⟩
  | container b _ hwrite => exact absurd hwrite (contra .bf)
  | message m _ _ _ hwrite => exact absurd (hwrite .mCmd (by decide)) (contra .mCmd)
  | register hreg _ => exact absurd (mayWrite_hwr hreg _) (contra _)
  | payloadByte => exact absurd rfl (contra .p)
  | telegram => exact absurd rfl (contra .p)

/-- Settles O52: a read writes nothing, and done again it does not see the response it gave. -/
theorem readsHaveNoSideEffect : Obligations.ReadsHaveNoSideEffect := by
  intro i s t hi h
  have hrow : ∀ x, mayWrite i x = false := by
    rcases hi with rfl | ⟨a, b, rfl | rfl | rfl⟩ <;> exact fun _ => rfl
  obtain ⟨r, rfl⟩ := (exec_effect h).eq_respond_of_writes_nothing hrow
  exact ⟨rfl, (exec_withResponse i s _).trans h⟩

/-- Settles O46. -/
theorem reservedCodesAreBadRequests : Obligations.ReservedCodesAreBadRequests := fun _ => ⟨rfl, rfl, rfl⟩

/-! The readings of the message registers (R13, R14). -/

/-- Settles O59: the command of a well-formed configuration's code is that one command, and each has its row in R13. -/
theorem meaningOfTheMessageRegisters : Obligations.MeaningOfTheMessageRegisters := by
  intro cfg m hcfg
  have hclass : ∀ c, m.cmd = cfg.code c → classify cfg m.cmd = some c := fun c => (classify_iff hcfg _ c).mpr
  refine ⟨fun c hc hcmd => ?short, fun hcmd => ?goTo, fun hcmd => ?reply, fun hne => ?none⟩
  case short =>
    have h := hclass c hcmd
    rcases hc with rfl | rfl
    · exact ⟨fun r => by cases r <;> simp [meaningful, h], by simp [lockReading, h]⟩
    · exact ⟨fun r => by cases r <;> simp [meaningful, h], by simp [lockReading, h]⟩
  case goTo =>
    have h := hclass .goTo hcmd
    exact ⟨fun r => by cases r <;> simp [meaningful, h], by simp [lockReading, h]⟩
  case reply =>
    have h := hclass .reply hcmd
    exact ⟨fun r => by cases r <;> simp [meaningful, h], by simp [lockReading, h]⟩
  case none =>
    cases h : classify cfg m.cmd with
    | none => exact ⟨fun r => by cases r <;> simp [meaningful, h], by simp [lockReading, h]⟩
    | some c =>
      cases c with
      | setParameters => exact ⟨fun r => by cases r <;> simp [meaningful, h], by simp [lockReading, h]⟩
      | query => exact absurd (classify_some h) (hne .query (by decide))
      | stop => exact absurd (classify_some h) (hne .stop (by decide))
      | goTo => exact absurd (classify_some h) (hne .goTo (by decide))
      | reply => exact absurd (classify_some h) (hne .reply (by decide))

end Sys2Proof.Machine
end

section
/-! SUPPORT. The laws of insert and extract (R87), from the eight bits of each result. -/

namespace Sys2Proof.Machine

/-- An extract is determined by the bits of the field. -/
theorem ext_eq_ok {c d : Byte} {o w : Nat} (h : o + w ≤ 8)
    (hbits : ∀ k < 8, d.getLsbD k = (decide (k < w) && c.getLsbD (o + k))) : ext c o w = .ok d := by
  obtain ⟨d', hd', hbits'⟩ := ext_bits c h
  have hdd : d' = d := byte_ext d' d fun k hk => by rw [hbits' k, hbits k hk]
  rw [hd', hdd]

/-- An insert is determined by the bits inside and outside the field. -/
theorem ins_eq_ok {c r x : Byte} {o w : Nat} (ho : o + w ≤ 8) (hx : x.toNat < 2 ^ w)
    (hbits : ∀ k < 8, r.getLsbD k = if o ≤ k ∧ k < o + w then x.getLsbD (k - o) else c.getLsbD k) :
    ins c o w x = .ok r := by
  obtain ⟨r', hr', hbits'⟩ := ins_bits c ho hx
  have hrr : r' = r := byte_ext r' r fun k hk => by rw [hbits' k, hbits k hk]
  rw [hr', hrr]

section Laws

variable {c r x : Byte} {o w o' w' : Nat}

/-- R87 (i): reading back what was inserted. -/
theorem ext_of_ins (ho : o + w ≤ 8) (hx : x.toNat < 2 ^ w) (hr : ins c o w x = .ok r) : ext r o w = .ok x := by
  obtain ⟨r', hr', hbits⟩ := ins_bits c ho hx
  cases hr.symm.trans hr'
  refine ext_eq_ok ho fun k _ => ?_
  by_cases hk : k < w
  · rw [hbits, if_pos (by omega), Nat.add_sub_cancel_left, decide_eq_true hk, Bool.true_and]
  · rw [getLsbD_of_lt x w k hx (by omega), decide_eq_false hk, Bool.false_and]

/-- R87 (ii): the bits outside the field are kept. -/
theorem ins_and_not_mask (ho : o + w ≤ 8) (hx : x.toNat < 2 ^ w) (hr : ins c o w x = .ok r) :
    r &&& ~~~(mask w <<< o) = c &&& ~~~(mask w <<< o) := by
  obtain ⟨r', hr', hbits⟩ := ins_bits c ho hx
  cases hr.symm.trans hr'
  refine byte_ext _ _ fun k hk => ?_
  rw [BitVec.getLsbD_and, BitVec.getLsbD_and, hbits]
  by_cases hin : o ≤ k ∧ k < o + w
  · have hmask : (mask w <<< o).getLsbD k = true := by
      rw [BitVec.getLsbD_shiftLeft, getLsbD_mask]
      have hlo : ¬ k < o := by omega
      have h8 : k - o < 8 := by omega
      have hw : k - o < w := by omega
      simp [hk, hlo, h8, hw]
    rw [BitVec.getLsbD_not, hmask, Bool.not_true, Bool.and_false, Bool.and_false, Bool.and_false]
  · rw [if_neg hin]

/-- R87 (iii): a disjoint field reads as before. -/
theorem ext_of_ins_disjoint (ho : o + w ≤ 8) (hx : x.toNat < 2 ^ w) (ho' : o' + w' ≤ 8)
    (hdis : o + w ≤ o' ∨ o' + w' ≤ o) (hr : ins c o w x = .ok r) : ext r o' w' = ext c o' w' := by
  obtain ⟨r', hr', hbits⟩ := ins_bits c ho hx
  cases hr.symm.trans hr'
  obtain ⟨d, hd, hdbits⟩ := ext_bits c ho'
  rw [hd]
  refine ext_eq_ok ho' fun k _ => ?_
  rw [hdbits, hbits]
  by_cases hk : k < w'
  · rw [if_neg (by omega)]
  · rw [decide_eq_false hk, Bool.false_and, Bool.false_and]

/-- R87 (iii): inserts into disjoint fields commute. -/
theorem ins_comm_of_disjoint {r' x' : Byte} (ho : o + w ≤ 8) (hx : x.toNat < 2 ^ w) (ho' : o' + w' ≤ 8)
    (hx' : x'.toNat < 2 ^ w') (hdis : o + w ≤ o' ∨ o' + w' ≤ o) (hr : ins c o w x = .ok r)
    (hr' : ins c o' w' x' = .ok r') : ins r o' w' x' = ins r' o w x := by
  obtain ⟨r₁, h₁, hbits⟩ := ins_bits c ho hx
  cases hr.symm.trans h₁
  obtain ⟨r₂, h₂, hbits'⟩ := ins_bits c ho' hx'
  cases hr'.symm.trans h₂
  obtain ⟨r₃, h₃, hbits₃⟩ := ins_bits r' ho hx
  rw [h₃]
  refine ins_eq_ok ho' hx' fun k _ => ?_
  rw [hbits₃, hbits', hbits]
  by_cases hin : o ≤ k ∧ k < o + w
  · rw [if_pos hin, if_neg (by omega), if_pos hin]
  · rw [if_neg hin, if_neg hin]

/-- R87 (iv): inserting what was extracted changes nothing. -/
theorem ins_of_ext {y : Byte} (ho : o + w ≤ 8) (hy : ext c o w = .ok y) : ins c o w y = .ok c := by
  obtain ⟨y', hy', hbits⟩ := ext_bits c ho
  cases hy.symm.trans hy'
  have hlt : y.toNat < 2 ^ w := toNat_lt_of_getLsbD fun k hk => by simp [hbits, hk]
  refine ins_eq_ok ho hlt fun k _ => ?_
  by_cases hin : o ≤ k ∧ k < o + w
  · have hw : k - o < w := by omega
    have hk : o + (k - o) = k := by omega
    rw [if_pos hin, hbits, decide_eq_true hw, Bool.true_and, hk]
  · rw [if_neg hin]

end Laws

/-- A list of operations whose first goes on is the rest of them from there. -/
theorem execAll_cons {i : Instr} {s t : State} (h : exec i s = .next t) (rest : List Instr) :
    execAll (i :: rest) s = execAll rest t := by
  rw [execAll, h]

/-- Settles O15: the laws one by one; the last is BFINS storing what BFEXT then reads back. -/
theorem fieldLaws : Obligations.FieldLaws := by
  intro c o w x ho hx
  obtain ⟨r, hr, -⟩ := ins_bits c ho hx
  obtain ⟨y, hy, -⟩ := ext_bits c ho
  rw [hr, hy]
  refine ⟨ext_of_ins ho hx hr, fun r' hr' => ins_and_not_mask ho hx (hr.trans hr'), fun o' w' ho' hdis => ?disjoint,
    ins_of_ext ho hy, ⟨ins_full x, ext_whole c⟩, fun s a b ha hb => ?operations⟩
  case disjoint =>
    refine ⟨ext_of_ins_disjoint ho hx ho' hdis hr, fun x' hx' => ?_⟩
    obtain ⟨r', hr', -⟩ := ins_bits c ho' hx'
    rw [hr']
    exact ins_comm_of_disjoint ho hx ho' hx' hdis hr hr'
  case operations =>
    subst ha hb
    obtain ⟨q, hq, -⟩ := ins_bits s.bf ho hx
    have hbfins := exec_bfins_of_ok hq
    have hbfext : exec (.bfext a b) (({ s with bf := q } : State).respond (okResponse 0)) =
        .next ((({ s with bf := q } : State).respond (okResponse 0)).respond (okResponse x)) :=
      exec_bfext_of_ok (ext_of_ins ho hx hq)
    exact ⟨_, (execAll_cons hbfins _).trans (execAll_cons hbfext []), rfl⟩

end Sys2Proof.Machine
end

section
/-! SUPPORT. The host's access to the whole telegram: SETDB and GETDB of any two indices (R31), the expansion of TLOAD
(R69, R106 (ii)), and what the reads tell of a block (R106 (iii)). -/

namespace Sys2Proof.Machine

/-- Settles O21: two DB indices below `T.LEN` are one wire position exactly when they are equal. -/
theorem setdbThenGetdb : Obligations.SetdbThenGetdb := by
  rintro s a a' v ⟨-, hlen, hwf, -⟩ ha
  have hset := exec_setdb_of_lt v hlen ha
  by_cases ha' : a'.toNat < s.tLen.toNat
  · refine ⟨_, _, _, hset, exec_getdb_of_lt hlen ha', exec_getdb_of_lt hlen ha', fun haa => ?same, fun hne => ?other⟩
    case same =>
      subst haa
      simp only [State.respond_response, State.respond_p, State.respond_tLen]
      rw [Memory.read_write _ _ _ _ hwf, if_pos rfl]
      rfl
    case other =>
      have hnat : a'.toNat ≠ a.toNat := fun h => hne (BitVec.eq_of_toNat_eq h)
      simp only [State.respond_response, State.respond_p, State.respond_tLen]
      rw [Memory.read_write _ _ _ _ hwf, if_neg (by omega)]
  · have hge : s.tLen.toNat ≤ a'.toNat := by omega
    refine ⟨_, _, _, hset, execGetdb_badRequest hge, execGetdb_badRequest hge, fun haa => ?_, fun _ => rfl⟩
    subst haa
    exact absurd ha ha'

/-- The SETDB requests of TLOAD write their bytes at the end of the payload, in wire order, and touch nothing else. -/
theorem execAll_loadBytes {L : Nat} (bytes : List Byte) : ∀ s : State, s.p.wf = true → s.tLen.toNat = L →
    L ≤ s.cfg.pmax → L ≤ 16 → bytes.length ≤ L → ∃ m r, execAll (loadBytes bytes) s = .next { s with p := m, response := r } ∧
      ∀ i, m.read i = if L - bytes.length ≤ i ∧ i < L then bytes.getD (i - (L - bytes.length)) 0 else s.p.read i := by
  induction bytes with
  | nil =>
    refine fun s _ _ _ _ _ => ⟨s.p, s.response, rfl, fun i => ?_⟩
    rw [List.length_nil, if_neg (by omega)]
  | cons b rest ih =>
    intro s hwf htLen hfit h16 hlen
    rw [List.length_cons] at hlen
    have hindex : (BitVec.ofNat 4 rest.length).toNat = rest.length := by rw [BitVec.toNat_ofNat]; omega
    have hset := exec_setdb_of_lt (a := BitVec.ofNat 4 rest.length) b (s := s) (by omega) (by omega)
    obtain ⟨m, r, hrun, hread⟩ := ih
      (({ s with p := s.p.write (s.tLen.toNat - 1 - rest.length) b } : State).respond (okResponse 0))
      (Memory.write_wf _ _ _ hwf) htLen hfit h16 (by omega)
    refine ⟨m, r, ?_, fun i => ?_⟩
    · rw [hindex] at hset
      exact (execAll_cons hset _).trans hrun
    · rw [hread, State.respond_p, Memory.read_write _ _ _ _ hwf, htLen, List.length_cons]
      by_cases hrest : L - rest.length ≤ i ∧ i < L
      · have hi : i - (L - (rest.length + 1)) = (i - (L - rest.length)) + 1 := by omega
        rw [if_pos hrest, if_pos (by omega), hi, List.getD_cons_succ]
      · rw [if_neg hrest]
        by_cases hhead : i = L - 1 - rest.length
        · have hi : i - (L - (rest.length + 1)) = 0 := by omega
          rw [if_pos hhead, if_pos (by omega), hi, List.getD_cons_zero]
        · rw [if_neg hhead, if_neg (by omega)]

/-- Settles O22: HWR of the two telegram registers leaves an empty buffer of the telegram's length, which the SETDB
requests fill from wire position 0 on. -/
theorem tloadReachesEveryTelegram : Obligations.TloadReachesEveryTelegram := by
  rintro s t bytes ⟨hcfg, -, -, -⟩ hfit
  have h16 : s.cfg.pmax ≤ 16 := Cfg.pmax_le hcfg
  have htLen : (BitVec.ofNat 8 bytes.length).toNat = bytes.length := by rw [BitVec.toNat_ofNat]; omega
  have hetype : exec (.hwr RegName.tEtype.index t) s =
      .next (({ s with tEtype := t } : State).respond (okResponse 0)) := exec_hwr_of_writeReg (r := .tEtype) rfl rfl
  have hlength : exec (.hwr RegName.tLen.index (BitVec.ofNat 8 bytes.length))
      (({ s with tEtype := t } : State).respond (okResponse 0)) =
      .next (((({ s with tEtype := t } : State).respond (okResponse 0)).allocate (BitVec.ofNat 8 bytes.length)).respond
        (okResponse 0)) :=
    exec_hwr_of_writeReg (r := .tLen) rfl (writeReg_tLen_of_le (htLen.symm ▸ hfit))
  obtain ⟨m, r, hrun, hread⟩ := execAll_loadBytes bytes
    (((({ s with tEtype := t } : State).respond (okResponse 0)).allocate (BitVec.ofNat 8 bytes.length)).respond
      (okResponse 0)) rfl htLen hfit (hfit.trans h16) (Nat.le_refl _)
  refine ⟨_, (execAll_cons hetype _).trans ((execAll_cons hlength _).trans hrun), rfl, htLen, fun i => ?_,
    sameBut_writeTelegram s t _ m r⟩
  refine (hread i).trans ?_
  rw [Nat.sub_self, Nat.sub_zero]
  by_cases hi : i < bytes.length
  · rw [if_pos ⟨Nat.zero_le i, hi⟩]
  · rw [if_neg (by omega), List.getD_eq_default _ _ (by omega)]
    rfl

/-- Two blocks that respond alike to a read that cannot fail read the same byte. -/
theorem data_eq_of_responds_alike {i : Instr} {s s' : State} {d d' : Byte}
    (h : ∃ t t', exec i s = .next t ∧ exec i s' = .next t' ∧ t.response = t'.response)
    (hd : exec i s = .next (s.respond (okResponse d))) (hd' : exec i s' = .next (s'.respond (okResponse d'))) :
    d = d' := by
  obtain ⟨t, t', ht, ht', hresp⟩ := h
  cases hd.symm.trans ht
  cases hd'.symm.trans ht'
  exact congrArg Response.data (Option.some.inj hresp)

/-- Settles O23: BFRAW tells the container, HRD the seven registers, GETDB every byte below `T.LEN`; beyond it every byte
is 0, and a canonical buffer is determined by what it reads. -/
theorem hostObservesWholeState : Obligations.HostObservesWholeState := by
  rintro s s' ⟨hcfg, hlen, hwf, hbound⟩ ⟨-, hlen', hwf', hbound'⟩ hcfgs halike
  have hbf : s.bf = s'.bf := data_eq_of_responds_alike (halike .bfraw (Or.inl rfl)) (exec_bfraw s) (exec_bfraw s')
  have hreg : ∀ {a r}, regAt a = some r → s.readReg r = s'.readReg r := fun hr =>
    data_eq_of_responds_alike (halike _ (Or.inr ⟨_, Or.inl rfl⟩)) (exec_hrd_of_regAt hr s) (exec_hrd_of_regAt hr s')
  have htLen : s.tLen = s'.tLen := hreg (a := 6) (r := .tLen) rfl
  have hp : s.p = s'.p := by
    refine Memory.ext _ _ hwf hwf' fun i => ?_
    by_cases hi : i < s.tLen.toNat
    · have h16 : s.cfg.pmax ≤ 16 := Cfg.pmax_le hcfg
      have ha : (BitVec.ofNat 4 (s.tLen.toNat - 1 - i)).toNat = s.tLen.toNat - 1 - i := by
        rw [BitVec.toNat_ofNat]
        omega
      have hdata := data_eq_of_responds_alike (halike _ (Or.inr ⟨BitVec.ofNat 4 (s.tLen.toNat - 1 - i), Or.inr rfl⟩))
        (exec_getdb_of_lt hlen (by omega)) (exec_getdb_of_lt hlen' (by rw [← htLen]; omega))
      have hpos : s.tLen.toNat - 1 - (s.tLen.toNat - 1 - i) = i := by omega
      rwa [← htLen, ha, hpos] at hdata
    · rw [Memory.read_of_bounded _ _ _ (by omega) hbound,
        Memory.read_of_bounded _ _ _ (by rw [← htLen]; omega) hbound']
  have hmCmd : s.mCmd = s'.mCmd := hreg (a := 0) (r := .mCmd) rfl
  have hmPos : s.mPos = s'.mPos := hreg (a := 1) (r := .mPos) rfl
  have hmAng : s.mAng = s'.mAng := hreg (a := 2) (r := .mAng) rfl
  have hmLock : s.mLock = s'.mLock := hreg (a := 3) (r := .mLock) rfl
  have hmRepos : s.mRepos = s'.mRepos := hreg (a := 4) (r := .mRepos) rfl
  have htEtype : s.tEtype = s'.tEtype := hreg (a := 5) (r := .tEtype) rfl
  rw [hbf, hmCmd, hmPos, hmAng, hmLock, hmRepos, htEtype, htLen, hp, hcfgs]

end Sys2Proof.Machine
end

section
/-! SUPPORT. ENC (R120, R124): the telegram it makes for each command, what it refuses (R121, R122), what it does not look
at (R125) and the bounds on what it makes (R127). -/

namespace Sys2Proof.Machine

/-! Bytes made of 3-bit fields. -/

/-- The byte DB1 of a GoTo, as a number. -/
theorem toNat_or_shiftLeft_four {l r : Byte} (hl : l.toNat < 8) (hr : r.toNat < 8) :
    (l ||| (r <<< 4)).toNat = l.toNat + 16 * r.toNat := by
  have hl16 : l.toNat < 2 ^ 4 := by omega
  rw [BitVec.toNat_or, BitVec.toNat_shiftLeft, Nat.or_comm, Nat.shiftLeft_eq, Nat.mod_eq_of_lt (by omega),
    ← Nat.shiftLeft_eq, ← Nat.shiftLeft_add_eq_or_of_lt hl16, Nat.shiftLeft_eq]
  omega

/-- A byte of two 3-bit fields at offsets 0 and 4 has bits 3 and 7 clear. -/
theorem getLsbD_of_two_fields {x : Byte} {l r : Nat} (hx : x.toNat = l + 16 * r) (hl : l < 8) (hr : r < 8) :
    x.getLsbD 3 = false ∧ x.getLsbD 7 = false := by
  rw [BitVec.getLsbD, BitVec.getLsbD, Nat.testBit_eq_decide_div_mod_eq, Nat.testBit_eq_decide_div_mod_eq, hx]
  exact ⟨decide_eq_false (by omega), decide_eq_false (by omega)⟩

theorem channelNibble_of_lt : ∀ b : Byte, b.toNat < 16 → channelNibble b = 0 := by decide

/-! The telegram ENC makes. -/

/-- A command register that holds a command's code is a nibble, classified as that command. -/
theorem mCmd_of_code {s : State} (hcfg : s.cfg.wf = true) {c : Command} (hcmd : s.mCmd = s.cfg.code c) :
    s.message.cmd.toNat < 16 ∧ classify s.cfg s.message.cmd = some c := by
  rw [State.message_cmd, hcmd]
  exact ⟨Cfg.code_lt hcfg c, classify_code hcfg c⟩

/-- ENC of a message the encoder accepts: the three telegram registers and their frame. -/
theorem exec_enc_of_ok {s : State} {q : List Byte} (hcfg : s.cfg.wf = true)
    (h : encodeMessage s.cfg s.message = .ok q) : ∃ m : Memory,
    exec .enc s =
      .next { s with tEtype := s.cfg.envVld, tLen := BitVec.ofNat 8 q.length, p := m,
                     response := some (okResponse 0) } ∧
    ∀ j, m.read j = q.getD j 0 := by
  obtain ⟨m, hexec, -, hread⟩ := execEnc_ok (Cfg.pmax_ge hcfg) h
  exact ⟨m, hexec, hread⟩

theorem encodeMessage_of_short {s : State} (hcfg : s.cfg.wf = true)
    (hcmd : s.mCmd = s.cfg.cmdQuery ∨ s.mCmd = s.cfg.cmdStop) : encodeMessage s.cfg s.message = .ok [s.mCmd] := by
  rcases hcmd with hcmd | hcmd
  · obtain ⟨hlt, hclass⟩ := mCmd_of_code hcfg (c := .query) hcmd
    exact encodeMessage_short hlt (Or.inl hclass)
  · obtain ⟨hlt, hclass⟩ := mCmd_of_code hcfg (c := .stop) hcmd
    exact encodeMessage_short hlt (Or.inr hclass)

theorem encodeMessage_of_goTo {s : State} (hcfg : s.cfg.wf = true) (hcmd : s.mCmd = s.cfg.cmdGoTo)
    (hlock : s.mLock.toNat < 8) (hrepos : s.mRepos.toNat < 8) :
    encodeMessage s.cfg s.message = .ok [s.mPos, s.mAng, s.mLock ||| (s.mRepos <<< 4), s.mCmd] := by
  obtain ⟨hlt, hclass⟩ := mCmd_of_code hcfg (c := .goTo) hcmd
  exact (encodeMessage_goTo hlt hclass).trans (if_pos ⟨hlock, hrepos⟩)

theorem encodeMessage_of_reply {s : State} (hcfg : s.cfg.wf = true) (hcmd : s.mCmd = s.cfg.cmdReply)
    (hlock : s.mLock.toNat < 8) :
    encodeMessage s.cfg s.message = .ok [s.mPos, s.mAng, s.mLock, s.mCmd] := by
  obtain ⟨hlt, hclass⟩ := mCmd_of_code hcfg (c := .reply) hcmd
  exact (encodeMessage_reply hlt hclass).trans (if_pos hlock)

/-- Settles O24. -/
theorem encQueryAndStop : Obligations.EncQueryAndStop := by
  intro s hcfg hcmd
  obtain ⟨m, hexec, hread⟩ := exec_enc_of_ok hcfg (encodeMessage_of_short hcfg hcmd)
  exact ⟨_, hexec, rfl, rfl, hread 0, fun i hi => (hread i).trans (List.getD_eq_default _ _ hi),
    sameBut_writeTelegram s _ _ m _, rfl⟩

/-- Settles O25. -/
theorem encGoTo : Obligations.EncGoTo := by
  intro s hcfg hcmd hlock hrepos
  obtain ⟨m, hexec, hread⟩ := exec_enc_of_ok hcfg (encodeMessage_of_goTo hcfg hcmd hlock hrepos)
  exact ⟨_, hexec, rfl, rfl, hread 0, hread 1,
    (congrArg BitVec.toNat (hread 2)).trans (toNat_or_shiftLeft_four hlock hrepos), hread 3,
    fun i hi => (hread i).trans (List.getD_eq_default _ _ hi), sameBut_writeTelegram s _ _ m _, rfl⟩

/-- Settles O26. -/
theorem encReply : Obligations.EncReply := by
  intro s hcfg hcmd hlock
  obtain ⟨m, hexec, hread⟩ := exec_enc_of_ok hcfg (encodeMessage_of_reply hcfg hcmd hlock)
  exact ⟨_, hexec, rfl, rfl, hread 0, hread 1, hread 2, hread 3,
    fun i hi => (hread i).trans (List.getD_eq_default _ _ hi), sameBut_writeTelegram s _ _ m _, rfl⟩

/-- Settles O28: the first test of R120 refuses a command above 15, the tests of step 3 the 3-bit fields. -/
theorem encFieldRange : Obligations.EncFieldRange := by
  intro s hcfg hrange
  refine exec_enc_of_error (e := .fieldRangeError) ?_
  rcases hrange with hcmd | ⟨hcmd, hfields⟩ | ⟨hcmd, hlock⟩
  · exact encodeMessage_tooBig s.cfg hcmd
  · obtain ⟨hlt, hclass⟩ := mCmd_of_code hcfg (c := .goTo) hcmd
    refine (encodeMessage_goTo hlt hclass).trans (if_neg fun h => ?_)
    rw [State.message_lock, State.message_repos] at h
    omega
  · obtain ⟨hlt, hclass⟩ := mCmd_of_code hcfg (c := .reply) hcmd
    refine (encodeMessage_reply hlt hclass).trans (if_neg fun h => ?_)
    rw [State.message_lock] at h
    omega

/-- The encoder reads only the registers that the command gives a meaning (R13, R125). -/
theorem encodeMessage_congr {s s' : State} (hcmd : s.mCmd = s'.mCmd)
    (hregs : ∀ r, meaningful s.cfg s.mCmd r = true → s.readReg r = s'.readReg r) :
    encodeMessage s.cfg s.message = encodeMessage s.cfg s'.message := by
  have hcmd' : s'.message.cmd = s.message.cmd := hcmd.symm
  by_cases hlt : s.message.cmd.toNat < 16
  · have hlt' : s'.message.cmd.toNat < 16 := hcmd' ▸ hlt
    cases hclass : classify s.cfg s.message.cmd with
    | none => rw [encodeMessage_unknown hlt hclass, encodeMessage_unknown hlt' (hcmd' ▸ hclass)]
    | some c =>
      have hclass' : classify s.cfg s'.message.cmd = some c := hcmd' ▸ hclass
      rw [State.message_cmd] at hclass
      cases c with
      | setParameters => rw [encodeMessage_setParameters hlt hclass, encodeMessage_setParameters hlt' hclass']
      | query => rw [encodeMessage_short hlt (Or.inl hclass), encodeMessage_short hlt' (Or.inl hclass'), hcmd']
      | stop => rw [encodeMessage_short hlt (Or.inr hclass), encodeMessage_short hlt' (Or.inr hclass'), hcmd']
      | goTo =>
        have hpos : s.mPos = s'.mPos := hregs .mPos (by simp [meaningful, hclass])
        have hang : s.mAng = s'.mAng := hregs .mAng (by simp [meaningful, hclass])
        have hlock : s.mLock = s'.mLock := hregs .mLock (by simp [meaningful, hclass])
        have hrepos : s.mRepos = s'.mRepos := hregs .mRepos (by simp [meaningful, hclass])
        have hmessage : s.message = s'.message := by
          rw [State.message, hcmd, hpos, hang, hlock, hrepos, State.message]
        rw [hmessage]
      | reply =>
        have hpos : s'.message.pos = s.message.pos := (hregs .mPos (by simp [meaningful, hclass])).symm
        have hang : s'.message.ang = s.message.ang := (hregs .mAng (by simp [meaningful, hclass])).symm
        have hlock : s'.message.lock = s.message.lock := (hregs .mLock (by simp [meaningful, hclass])).symm
        rw [encodeMessage_reply hlt hclass, encodeMessage_reply hlt' hclass', hcmd', hpos, hang]
        simp only [hlock]
  · rw [encodeMessage_tooBig _ (Nat.not_lt.mp hlt), encodeMessage_tooBig _ (Nat.not_lt.mp (hcmd' ▸ hlt))]

/-- Settles O29: ENC does what the encoder gives, which is the same for both blocks. -/
theorem encLeaksNoStaleField : Obligations.EncLeaksNoStaleField := by
  intro s s' hcfgs hcfg hcmd hregs
  have hsame : encodeMessage s'.cfg s'.message = encodeMessage s.cfg s.message :=
    hcfgs ▸ (encodeMessage_congr hcmd hregs).symm
  cases henc : encodeMessage s.cfg s.message with
  | error e =>
    exact ⟨_, _, exec_enc_of_error henc, exec_enc_of_error (hsame.trans henc), rfl, fun hok => nomatch hok⟩
  | ok q =>
    obtain ⟨m, hexec, hread⟩ := exec_enc_of_ok hcfg henc
    obtain ⟨m', hexec', hread'⟩ := exec_enc_of_ok (hcfgs ▸ hcfg) (hsame.trans henc)
    exact ⟨_, _, hexec, hexec', rfl, fun _ =>
      ⟨congrArg Cfg.envVld hcfgs, rfl, fun i => (hread i).trans (hread' i).symm⟩⟩

/-- Settles O30: everything the encoder can give is one of its three errors, one byte, or four. -/
theorem encOutputBounds : Obligations.EncOutputBounds := by
  intro s hcfg
  rcases encodeMessage_cases s.cfg s.message with ⟨e, he, henc⟩ | ⟨hlt, -, henc⟩ | ⟨hlt, -, hlock, hrepos, henc⟩ |
    ⟨hlt, -, hlock, henc⟩
  · exact ⟨_, _, exec_enc_of_error henc, rfl, rfl, rfl, fun e' he' => Option.some.inj he' ▸ he, nofun⟩
  · obtain ⟨m, hexec, hread⟩ := exec_enc_of_ok hcfg henc
    exact ⟨_, _, hexec, rfl, rfl, rfl, nofun, fun _ => ⟨Or.inl rfl,
      (congrArg channelNibble (hread 0)).trans (channelNibble_of_lt _ hlt),
      fun h => absurd h (show (1 : Byte) ≠ 4 by decide)⟩⟩
  · obtain ⟨m, hexec, hread⟩ := exec_enc_of_ok hcfg henc
    have hdb1 := (congrArg BitVec.toNat (hread 2)).trans (toNat_or_shiftLeft_four hlock hrepos)
    exact ⟨_, _, hexec, rfl, rfl, rfl, nofun, fun _ => ⟨Or.inr rfl,
      (congrArg channelNibble (hread 3)).trans (channelNibble_of_lt _ hlt),
      fun _ => getLsbD_of_two_fields hdb1 hlock hrepos⟩⟩
  · obtain ⟨m, hexec, hread⟩ := exec_enc_of_ok hcfg henc
    have hdb1 : (m.read 2).toNat = s.message.lock.toNat + 16 * 0 := congrArg BitVec.toNat (hread 2)
    exact ⟨_, _, hexec, rfl, rfl, rfl, nofun, fun _ => ⟨Or.inr rfl,
      (congrArg channelNibble (hread 3)).trans (channelNibble_of_lt _ hlt),
      fun _ => getLsbD_of_two_fields hdb1 hlock (by decide)⟩⟩

end Sys2Proof.Machine
end

section
/-! SUPPORT. The decoders (R141, R145, R146) and the reception of a payload command (log entry 7), from the byte DB0 on:
what each command in it makes of the telegram, and what the decoders do not look at (R142, R150). -/

namespace Sys2Proof.Machine

/-! The 3-bit fields of DB1. -/

theorem toNat_and_seven : ∀ x : Byte, (x &&& 7).toNat = x.toNat % 8 := by decide

theorem toNat_shiftRight_and_seven : ∀ x : Byte, ((x >>> 4) &&& 7).toNat = x.toNat / 16 % 8 := by decide

/-- The message a telegram of four bytes carries; a Reply leaves the repositioning mode of the starting message. -/
def State.messageF4 (s : State) (goTo : Bool) (m0 : Message) (cmd : Byte) : Message :=
  { cmd := cmd, pos := s.p.read 0, ang := s.p.read 1, lock := s.p.read 2 &&& 7,
    repos := if goTo then (s.p.read 2 >>> 4) &&& 7 else m0.repos }

/-! Steps 3 to 6 of R141. -/

/-- The rest of a decoder or of a reception, once the byte DB0 is known. -/
def commandOnto (m0 : Message) (b0 : Byte) (s : State) : Host.Outcome State Fault Refusal :=
  orFault (decodeCommand s.cfg s.tLen.toNat s.readDB m0 b0) (finishDecode s)

theorem decodeOnto_eq_commandOnto (m0 : Message) {s : State} (henv : s.tEtype = s.cfg.envVld)
    (hpos : 1 ≤ s.tLen.toNat) (hfit : s.tLen.toNat ≤ s.cfg.pmax) :
    decodeOnto m0 s = commandOnto m0 (s.p.read (s.tLen.toNat - 1)) s := decodeOnto_command m0 henv hpos hfit

theorem receive_eq_commandOnto (b0 : Byte) {s : State} (henv : s.tEtype = s.cfg.envVld) (hpos : 1 ≤ s.tLen.toNat) :
    receive b0 s = commandOnto (freshMessage s.mCmd) b0 s := receive_command b0 henv hpos

theorem commandOnto_of_decodeCommand {m0 : Message} {b0 : Byte} {s : State} {d : Decoded}
    (h : decodeCommand s.cfg s.tLen.toNat s.readDB m0 b0 = .ok d) : commandOnto m0 b0 s = finishDecode s d := by
  rw [commandOnto, h, orFault_ok]

section Commands

variable (m0 : Message) {b0 : Byte} {s : State}

/-- Step 4: a Query or a Stop takes the command alone. -/
theorem commandOnto_short (hclass : classify s.cfg ((commandNibble b0).setWidth 8) = some .query ∨
    classify s.cfg ((commandNibble b0).setWidth 8) = some .stop) : commandOnto m0 b0 s =
      .next ((s.setMessage { m0 with cmd := (commandNibble b0).setWidth 8 }).respond
        (diagnosed none (some (channelNibble b0)))) := by
  rcases hclass with hclass | hclass
  · exact commandOnto_of_decodeCommand (decodeCommand_query _ _ m0 hclass)
  · exact commandOnto_of_decodeCommand (decodeCommand_stop _ _ m0 hclass)

/-- Step 5: a GoTo or a Reply of four bytes. -/
theorem commandOnto_f4 (goTo : Bool)
    (hclass : classify s.cfg ((commandNibble b0).setWidth 8) = some (if goTo then .goTo else .reply))
    (h4 : s.tLen.toNat = 4) (hfit : s.tLen.toNat ≤ s.cfg.pmax) : commandOnto m0 b0 s =
      .next ((s.setMessage (s.messageF4 goTo m0 ((commandNibble b0).setWidth 8))).respond
        (diagnosed none (some (channelNibble b0)))) := by
  have hF4 : decodeCommand s.cfg s.tLen.toNat s.readDB m0 b0 =
      decodeF4 goTo 4 s.readDB m0 ((commandNibble b0).setWidth 8) (channelNibble b0) := by
    cases goTo with
    | true => rw [decodeCommand_goTo _ _ m0 hclass, h4]
    | false => rw [decodeCommand_reply _ _ m0 hclass, h4]
  exact commandOnto_of_decodeCommand (hF4.trans (decodeF4_registers goTo m0 _ _ h4 (h4 ▸ hfit)))

/-- Step 5 with a wrong length. -/
theorem commandOnto_mismatch (hclass : classify s.cfg ((commandNibble b0).setWidth 8) = some .goTo ∨
    classify s.cfg ((commandNibble b0).setWidth 8) = some .reply) (h4 : s.tLen.toNat ≠ 4) : commandOnto m0 b0 s =
      .next (s.respond (diagnosed (some .payloadLengthMismatch) (some (channelNibble b0)))) :=
  commandOnto_of_decodeCommand (decodeCommand_lengthMismatch s.readDB m0 hclass h4)

/-- Step 6: no command that has a message. -/
theorem commandOnto_unknown (hclass : classify s.cfg ((commandNibble b0).setWidth 8) = none ∨
    classify s.cfg ((commandNibble b0).setWidth 8) = some .setParameters) : commandOnto m0 b0 s =
      .next (s.respond (diagnosed (some .unknownCommand) (some (channelNibble b0)))) :=
  commandOnto_of_decodeCommand (decodeCommand_unknown _ s.readDB m0 hclass)

/-- What the command in DB0 can be, with the length: the four cases of steps 4 to 6. -/
theorem command_cases (cfg : Cfg) (len : Nat) (b0 : Byte) :
    (classify cfg ((commandNibble b0).setWidth 8) = some .query ∨
      classify cfg ((commandNibble b0).setWidth 8) = some .stop) ∨
    (len = 4 ∧ ∃ goTo : Bool, classify cfg ((commandNibble b0).setWidth 8) = some (if goTo then .goTo else .reply)) ∨
    (len ≠ 4 ∧ (classify cfg ((commandNibble b0).setWidth 8) = some .goTo ∨
      classify cfg ((commandNibble b0).setWidth 8) = some .reply)) ∨
    (classify cfg ((commandNibble b0).setWidth 8) = none ∨
      classify cfg ((commandNibble b0).setWidth 8) = some .setParameters) := by
  cases classify cfg ((commandNibble b0).setWidth 8) with
  | none => exact Or.inr (Or.inr (Or.inr (Or.inl rfl)))
  | some c =>
    cases c with
    | query => exact Or.inl (Or.inl rfl)
    | stop => exact Or.inl (Or.inr rfl)
    | setParameters => exact Or.inr (Or.inr (Or.inr (Or.inr rfl)))
    | goTo =>
      rcases Decidable.em (len = 4) with h4 | h4
      · exact Or.inr (Or.inl ⟨h4, true, rfl⟩)
      · exact Or.inr (Or.inr (Or.inl ⟨h4, Or.inl rfl⟩))
    | reply =>
      rcases Decidable.em (len = 4) with h4 | h4
      · exact Or.inr (Or.inl ⟨h4, false, rfl⟩)
      · exact Or.inr (Or.inr (Or.inl ⟨h4, Or.inr rfl⟩))

/-- Once DB0 is read the response carries its channel (R144). -/
theorem commandOnto_diagnosed (b0 : Byte) (hfit : s.tLen.toNat ≤ s.cfg.pmax) :
    ∃ u err, commandOnto m0 b0 s = .next (State.respond u (diagnosed err (some (channelNibble b0)))) := by
  rcases command_cases s.cfg s.tLen.toNat b0 with h | ⟨h4, goTo, h⟩ | ⟨h4, h⟩ | h
  · exact ⟨_, _, commandOnto_short m0 h⟩
  · exact ⟨_, _, commandOnto_f4 m0 goTo h h4 hfit⟩
  · exact ⟨_, _, commandOnto_mismatch m0 h h4⟩
  · exact ⟨_, _, commandOnto_unknown m0 h⟩

end Commands

/-! DEC and DECA of each command. -/

/-- Settles O31. -/
theorem decQueryAndStop : Obligations.DecQueryAndStop := by
  intro s ch n hcfg henv hpos hfit hdb0 hcmd
  have hclass := hcmd.imp (classify_db0Byte_iff hcfg ch n .query).mpr (classify_db0Byte_iff hcfg ch n .stop).mpr
  have hdecode : ∀ m0, decodeOnto m0 s = .next ((s.setMessage { m0 with cmd := n.setWidth 8 }).respond
      (diagnosed none (some ch))) := fun m0 => by
    rw [decodeOnto_eq_commandOnto m0 henv hpos hfit, hdb0, commandOnto_short m0 hclass, commandNibble_db0Byte,
      channelNibble_db0Byte]
  exact ⟨hdecode (freshMessage s.mCmd), hdecode s.message⟩

/-- What the four-byte telegram of a command leaves in the registers, whatever decodes it. -/
theorem decodeOnto_f4 {s : State} {ch n : Nibble} (goTo : Bool) (hcfg : s.cfg.wf = true)
    (henv : s.tEtype = s.cfg.envVld) (hlen : s.tLen = 4) (hdb0 : s.p.read 3 = db0Byte ch n)
    (hcmd : n.toNat = (s.cfg.code (if goTo then .goTo else .reply)).toNat) (m0 : Message) :
    decodeOnto m0 s =
      .next ((s.setMessage (s.messageF4 goTo m0 (s.cfg.code (if goTo then .goTo else .reply)))).respond
        (diagnosed none (some ch))) := by
  have h4 : s.tLen.toNat = 4 := congrArg BitVec.toNat hlen
  have hfit : s.tLen.toNat ≤ s.cfg.pmax := by have := Cfg.pmax_ge hcfg; omega
  have hclass := (classify_db0Byte_iff hcfg ch n _).mpr hcmd
  rw [decodeOnto_eq_commandOnto m0 henv (by omega) hfit, h4, hdb0, commandOnto_f4 m0 goTo hclass h4 hfit,
    classify_some hclass, channelNibble_db0Byte]

/-- Settles O32: the starting message has no part in what a GoTo leaves. -/
theorem decGoTo : Obligations.DecGoTo := by
  intro s ch n hcfg henv hlen hdb0 hcmd
  have hdecode := decodeOnto_f4 true hcfg henv hlen hdb0 hcmd
  exact ⟨_, hdecode (freshMessage s.mCmd), hdecode s.message, rfl, rfl, rfl, toNat_and_seven _,
    toNat_shiftRight_and_seven _, sameBut_setMessage s _ _, rfl⟩

/-- Settles O33: of the starting message a Reply leaves the repositioning mode. -/
theorem decReply : Obligations.DecReply := by
  intro s ch n hcfg henv hlen hdb0 hcmd
  have hdecode := decodeOnto_f4 false hcfg henv hlen hdb0 hcmd
  exact ⟨_, hdecode (freshMessage s.mCmd), hdecode s.message, rfl, rfl, rfl, toNat_and_seven _, rfl,
    sameBut_setMessage s _ _, rfl⟩

/-- Settles O35: steps 1 and 2 fail without a diagnostic, and from step 3 on every end has it. -/
theorem diagnosticAlwaysReported : Obligations.DiagnosticAlwaysReported := by
  rintro s i hi ⟨-, hfit, -, -⟩
  obtain ⟨m0, hexec⟩ := exec_decoder_eq_decodeOnto hi s
  rw [hexec]
  by_cases henv : s.tEtype = s.cfg.envVld
  · by_cases hlen : s.tLen.toNat = 0
    · refine ⟨_, _, decodeOnto_empty m0 henv hlen, rfl, fun _ hpos => ?_, fun _ => ⟨rfl, rfl, by simp [diagnosed]⟩⟩
      omega
    · obtain ⟨u, err, h⟩ := commandOnto_diagnosed m0 (s.p.read (s.tLen.toNat - 1)) hfit
      refine ⟨_, _, (decodeOnto_eq_commandOnto m0 henv (by omega) hfit).trans h, rfl, fun _ _ => ⟨rfl, rfl⟩, ?_⟩
      rintro (hne | hzero)
      · exact absurd henv hne
      · exact absurd (congrArg BitVec.toNat hzero) hlen
  · exact ⟨_, _, decodeOnto_envelope m0 henv, rfl, fun h => absurd h henv, fun _ => ⟨rfl, rfl, by simp [diagnosed]⟩⟩

/-! What the decoders do not look at. -/

/-- A telegram that agrees with another on the fields its command has is decoded to the same message, or refused with the
same error. -/
theorem commandOnto_congr {s : State} {m : Memory} (m0 : Message) {b0 b0' : Byte}
    (hfit : s.tLen.toNat ≤ s.cfg.pmax) (hnibble : commandNibble b0' = commandNibble b0)
    (hF4 : (commandNibble b0).toNat = s.cfg.cmdGoTo.toNat ∨ (commandNibble b0).toNat = s.cfg.cmdReply.toNat →
      m.read 0 = s.p.read 0 ∧ m.read 1 = s.p.read 1 ∧ (m.read 2).toNat % 8 = (s.p.read 2).toNat % 8)
    (hgoTo : (commandNibble b0).toNat = s.cfg.cmdGoTo.toNat →
      (m.read 2).toNat / 16 % 8 = (s.p.read 2).toNat / 16 % 8) :
    ∃ t t', commandOnto m0 b0 s = .next t ∧ commandOnto m0 b0' { s with p := m } = .next t' ∧
      t'.message = t.message ∧ t'.response.map (·.err) = t.response.map (·.err) := by
  have hcode : ∀ c, classify s.cfg ((commandNibble b0).setWidth 8) = some c →
      (commandNibble b0).toNat = (s.cfg.code c).toNat := fun c h => (nibble_setWidth_eq_iff _ _).mp (classify_some h)
  rcases command_cases s.cfg s.tLen.toNat b0 with h | ⟨h4, goTo, h⟩ | ⟨h4, h⟩ | h
  · refine ⟨_, _, commandOnto_short m0 h, commandOnto_short (s := { s with p := m }) m0 (hnibble ▸ h), ?_, rfl⟩
    rw [hnibble]
    rfl
  · refine ⟨_, _, commandOnto_f4 m0 goTo h h4 hfit,
      commandOnto_f4 (s := { s with p := m }) m0 goTo (hnibble ▸ h) h4 hfit, ?_, rfl⟩
    have hfields := hF4 (by cases goTo with
      | true => exact Or.inl (hcode _ h)
      | false => exact Or.inr (hcode _ h))
    obtain ⟨hpos, hang, hlock⟩ := hfields
    have hlock' : m.read 2 &&& 7 = s.p.read 2 &&& 7 :=
      BitVec.eq_of_toNat_eq (by rw [toNat_and_seven, toNat_and_seven, hlock])
    have hrepos : (if goTo then (m.read 2 >>> 4) &&& 7 else m0.repos) =
        if goTo then (s.p.read 2 >>> 4) &&& 7 else m0.repos := by
      cases goTo with
      | false => rfl
      | true =>
        exact BitVec.eq_of_toNat_eq
          (by rw [if_pos rfl, if_pos rfl, toNat_shiftRight_and_seven, toNat_shiftRight_and_seven, hgoTo (hcode _ h)])
    simp only [State.message_respond, State.message_setMessage, State.messageF4, hnibble, hpos, hang, hlock', hrepos]
  · exact ⟨_, _, commandOnto_mismatch m0 h h4, commandOnto_mismatch (s := { s with p := m }) m0 (hnibble ▸ h) h4, rfl,
      rfl⟩
  · exact ⟨_, _, commandOnto_unknown m0 h, commandOnto_unknown (s := { s with p := m }) m0 (hnibble ▸ h), rfl, rfl⟩

/-- Settles O36: a wrong envelope type is refused whatever the payload is; otherwise the commands in the two DB0 bytes are
the same. -/
theorem decodersReadOnlyTheirFields : Obligations.DecodersReadOnlyTheirFields := by
  intro s m i hi _ hfit hpos hnibble hF4 hgoTo
  have hdecode : ∀ m0, ∃ t t', decodeOnto m0 s = .next t ∧ decodeOnto m0 { s with p := m } = .next t' ∧
      t'.message = t.message ∧ t'.response.map (·.err) = t.response.map (·.err) := fun m0 => by
    by_cases henv : s.tEtype = s.cfg.envVld
    · rw [decodeOnto_eq_commandOnto m0 henv hpos hfit,
        decodeOnto_eq_commandOnto (s := { s with p := m }) m0 henv hpos hfit]
      exact commandOnto_congr m0 hfit hnibble hF4 hgoTo
    · exact ⟨_, _, decodeOnto_envelope m0 henv, decodeOnto_envelope (s := { s with p := m }) m0 henv, rfl, rfl⟩
  rcases hi with rfl | rfl
  · exact hdecode (freshMessage s.mCmd)
  · exact hdecode s.message

/-- The command of a fresh starting message is overwritten or not used. -/
theorem decodeTelegram_freshMessage (cfg : Cfg) (etype : Byte) (len : Nat) (db : Nat → Except Fault Byte)
    (c c' : Byte) :
    decodeTelegram cfg etype len db (freshMessage c) = decodeTelegram cfg etype len db (freshMessage c') :=
  rfl

/-- Settles O37: after MNEW the message is fresh, so DECA decodes what DEC decodes, and a success overwrites the message
and the response. -/
theorem decIsMnewThenDeca : Obligations.DecIsMnewThenDeca := by
  intro s t u c hmnew hdeca hok
  cases (exec_mnew c s).symm.trans hmnew
  obtain ⟨d, hd, hfinish⟩ := orFault_next hdeca
  have hdec : exec .dec s = finishDecode s d := by
    have h : decodeTelegram s.cfg s.tEtype s.tLen.toNat s.readDB (freshMessage s.mCmd) = .ok d :=
      (decodeTelegram_freshMessage _ _ _ _ s.mCmd c).trans hd
    exact congrArg (orFault · (finishDecode s)) h
  rw [hdec]
  rcases finishDecode_cases ((s.setMessage (freshMessage c)).respond (okResponse 0)) d with ⟨e, -, hf⟩ | ⟨m, hout, hf⟩
  · cases hf.symm.trans hfinish
    exact nomatch hok
  · cases hf.symm.trans hfinish
    rw [finishDecode, hout]
    rfl

/-! The payload commands as instructions (log entry 7). -/

/-- Settles O40: the byte DB0 is the one the command it decodes to is encoded as. -/
theorem decPerformsPayloadCommand : Obligations.DecPerformsPayloadCommand := by
  intro s i _ hpos hfit hdecode
  obtain ⟨c, hclass, rfl⟩ := decodePayload_eq_ok hdecode
  have hdb0 : s.readDB 0 = .ok (s.p.read (s.tLen.toNat - 1)) := readDB_ok (by omega) hfit
  rw [exec_payloadInstr, encodePayload_of_classify hclass, receive, ← hdb0]
  rfl

/-- Receiving a Query or a Stop: a fresh message with its code. -/
theorem exec_payloadInstr_short {s : State} {c : Command} (hc : c = .query ∨ c = .stop) (ch : Nibble)
    (hcfg : s.cfg.wf = true) (henv : s.tEtype = s.cfg.envVld) (hpos : 1 ≤ s.tLen.toNat) :
    exec (payloadInstr ch c) s =
      .next ((s.setMessage (freshMessage (s.cfg.code c))).respond (diagnosed none (some ch))) := by
  have hclass := classify_encodePayload hcfg c ch
  rw [exec_payloadInstr, receive_eq_commandOnto _ henv hpos,
    commandOnto_short _ (hc.imp (fun h => h ▸ hclass) (fun h => h ▸ hclass)), commandNibble_encodePayload hcfg,
    channelNibble_encodePayload]
  rfl

/-- Receiving a GoTo or a Reply of four bytes: all its fields into a fresh message. -/
theorem exec_payloadInstr_f4 {s : State} (goTo : Bool) (ch : Nibble) (hcfg : s.cfg.wf = true)
    (henv : s.tEtype = s.cfg.envVld) (hlen : s.tLen = 4) :
    exec (payloadInstr ch (if goTo then .goTo else .reply)) s =
      .next ((s.setMessage (s.messageF4 goTo (freshMessage s.mCmd)
        (s.cfg.code (if goTo then .goTo else .reply)))).respond (diagnosed none (some ch))) := by
  have h4 : s.tLen.toNat = 4 := congrArg BitVec.toNat hlen
  have hfit : s.tLen.toNat ≤ s.cfg.pmax := by have := Cfg.pmax_ge hcfg; omega
  rw [exec_payloadInstr, receive_eq_commandOnto _ henv (by omega),
    commandOnto_f4 _ goTo (classify_encodePayload hcfg _ ch) h4 hfit, commandNibble_encodePayload hcfg,
    channelNibble_encodePayload]

/-- Settles O41. -/
theorem queryAndStopReceived : Obligations.QueryAndStopReceived := fun _ ch hcfg henv hpos =>
  ⟨exec_payloadInstr_short (c := .query) (Or.inl rfl) ch hcfg henv hpos,
    exec_payloadInstr_short (c := .stop) (Or.inr rfl) ch hcfg henv hpos⟩

/-- Settles O42. -/
theorem goToReceived : Obligations.GoToReceived := fun s ch hcfg henv hlen =>
  ⟨_, exec_payloadInstr_f4 true ch hcfg henv hlen, rfl, rfl, rfl, toNat_and_seven _, toNat_shiftRight_and_seven _,
    sameBut_setMessage s _ _, rfl⟩

/-- Settles O43. -/
theorem replyReceived : Obligations.ReplyReceived := fun s ch hcfg henv hlen =>
  ⟨_, exec_payloadInstr_f4 false ch hcfg henv hlen, rfl, rfl, rfl, toNat_and_seven _, rfl, sameBut_setMessage s _ _, rfl⟩

/-- Settles O44. -/
theorem setParametersReceived : Obligations.SetParametersReceived := by
  intro s ch hcfg henv hpos
  have hexec : exec (.setParameters ch) s = receive (encodePayload s.cfg .setParameters ch) s := rfl
  rw [hexec, receive_eq_commandOnto _ henv hpos,
    commandOnto_unknown _ (Or.inr (classify_encodePayload hcfg .setParameters ch)), channelNibble_encodePayload]
  rfl

end Sys2Proof.Machine
end

section
/-! SUPPORT. Encoder and decoder against each other (R149): ENC then a decoder, and a decoder then ENC. -/

namespace Sys2Proof.Machine

theorem code_ne {cfg : Cfg} (hcfg : cfg.wf = true) {c d : Command} (h : c ≠ d) : cfg.code c ≠ cfg.code d :=
  fun hcode => h (Cfg.code_injective hcfg c d hcode)

/-! ENC, then a decoder: the channel of what ENC makes is 0. -/

/-- The byte DB0 that ENC makes is the command on channel 0. -/
theorem code_eq_db0Byte {cfg : Cfg} (hcfg : cfg.wf = true) (c : Command) :
    cfg.code c = db0Byte 0 ((cfg.code c).setWidth 4) := by
  have hnibbles := db0Byte_nibbles (cfg.code c)
  rwa [channelNibble_of_lt _ (Cfg.code_lt hcfg c), commandNibble, ← BitVec.setWidth_eq_extractLsb' (by decide),
    eq_comm] at hnibbles

theorem toNat_code_setWidth {cfg : Cfg} (hcfg : cfg.wf = true) (c : Command) :
    ((cfg.code c).setWidth 4).toNat = (cfg.code c).toNat :=
  (nibble_setWidth_eq_iff _ _).mp (setWidth_setWidth_of_lt _ (Cfg.code_lt hcfg c))

/-- The 3-bit fields of DB1 read back what ENC put there. -/
theorem and_seven_of_two_fields {l r : Byte} (hl : l.toNat < 8) (hr : r.toNat < 8) :
    (l ||| (r <<< 4)) &&& 7 = l ∧ ((l ||| (r <<< 4)) >>> 4) &&& 7 = r := by
  refine ⟨BitVec.eq_of_toNat_eq ?_, BitVec.eq_of_toNat_eq ?_⟩
  · rw [toNat_and_seven, toNat_or_shiftLeft_four hl hr]
    omega
  · rw [toNat_shiftRight_and_seven, toNat_or_shiftLeft_four hl hr]
    omega

theorem and_seven_of_lt {l : Byte} (hl : l.toNat < 8) : l &&& 7 = l :=
  BitVec.eq_of_toNat_eq (by rw [toNat_and_seven, Nat.mod_eq_of_lt hl])

/-- A Query or a Stop comes back from ENC with its command: DEC gives the fresh message, DECA the old one. -/
theorem enc_then_decode_short {s : State} (hcfg : s.cfg.wf = true) {c : Command} (hc : c = .query ∨ c = .stop)
    (hcmd : s.mCmd = s.cfg.code c) : ∃ t u u', exec .enc s = .next t ∧ exec .dec t = .next u ∧ exec .deca t = .next u' ∧
      u.response = some (okResponse 0) ∧ u'.response = some (okResponse 0) ∧ u.message = freshMessage s.mCmd ∧
      u'.message = s.message := by
  have hshort : s.mCmd = s.cfg.cmdQuery ∨ s.mCmd = s.cfg.cmdStop := hc.imp (fun h => by rw [hcmd, h]; rfl)
    (fun h => by rw [hcmd, h]; rfl)
  obtain ⟨m, henc, hread⟩ := exec_enc_of_ok hcfg (encodeMessage_of_short hcfg hshort)
  have hnibble : ((s.cfg.code c).setWidth 4).toNat = s.cfg.cmdQuery.toNat ∨
      ((s.cfg.code c).setWidth 4).toNat = s.cfg.cmdStop.toNat := by
    rw [toNat_code_setWidth hcfg, ← hcmd]
    exact hshort.imp (congrArg BitVec.toNat) (congrArg BitVec.toNat)
  have hdb0 : m.read 0 = db0Byte 0 ((s.cfg.code c).setWidth 4) :=
    (hread 0).trans (hcmd.trans (code_eq_db0Byte hcfg c))
  have hone : 1 ≤ s.cfg.pmax := by have := Cfg.pmax_ge hcfg; omega
  obtain ⟨hdec, hdeca⟩ := decQueryAndStop
    { s with tEtype := s.cfg.envVld, tLen := 1, p := m, response := some (okResponse 0) } 0 _ hcfg rfl
    (Nat.le_refl 1) hone hdb0 hnibble
  have hback : ((s.cfg.code c).setWidth 4).setWidth 8 = s.mCmd :=
    (setWidth_setWidth_of_lt _ (Cfg.code_lt hcfg c)).trans hcmd.symm
  exact ⟨_, _, _, henc, hdec, hdeca, rfl, rfl, congrArg freshMessage hback,
    congrArg (fun cmd => { s.message with cmd := cmd }) hback⟩

/-- A four-byte message comes back from ENC with its fields, from any starting message. -/
theorem enc_then_decode_f4 {s : State} (goTo : Bool) (hcfg : s.cfg.wf = true)
    (hcmd : s.mCmd = s.cfg.code (if goTo then .goTo else .reply)) {db1 : Byte}
    (hlock : db1 &&& 7 = s.mLock) (henc : encodeMessage s.cfg s.message = .ok [s.mPos, s.mAng, db1, s.mCmd]) :
    ∃ t, exec .enc s = .next t ∧ t.message = s.message ∧ ∀ m0, ∃ u, decodeOnto m0 t = .next u ∧
      u.response = some (okResponse 0) ∧
      u.message = { s.message with repos := if goTo then (db1 >>> 4) &&& 7 else m0.repos } := by
  obtain ⟨m, hexec, hread⟩ := exec_enc_of_ok hcfg henc
  refine ⟨_, hexec, rfl, fun m0 => ?_⟩
  have hdb0 : m.read 3 = db0Byte 0 ((s.cfg.code (if goTo then .goTo else .reply)).setWidth 4) :=
    (hread 3).trans (hcmd.trans (code_eq_db0Byte hcfg _))
  refine ⟨_, decodeOnto_f4 (s := { s with tEtype := s.cfg.envVld, tLen := 4, p := m, response := some (okResponse 0) })
    goTo hcfg rfl rfl hdb0 (toNat_code_setWidth hcfg _) m0, rfl, ?_⟩
  have hread0 : m.read 0 = s.mPos := hread 0
  have hread1 : m.read 1 = s.mAng := hread 1
  have hread2 : m.read 2 = db1 := hread 2
  simp only [State.message_respond, State.message_setMessage, State.messageF4, hread0, hread1, hread2, hlock, ← hcmd]
  rfl

/-- Settles O38: each of the four commands in turn; the clauses of the others do not apply, as the codes differ. -/
theorem encThenDecRoundTrip : Obligations.EncThenDecRoundTrip := by
  intro s hcfg hlock hrepos hcmd
  have hne : ∀ {c d : Command}, s.mCmd = s.cfg.code c → c ≠ d → s.mCmd ≠ s.cfg.code d :=
    fun h hcd => h ▸ code_ne hcfg hcd
  have hcases : (∃ c, (c = .query ∨ c = .stop) ∧ s.mCmd = s.cfg.code c) ∨ s.mCmd = s.cfg.cmdGoTo ∨
      s.mCmd = s.cfg.cmdReply := by
    rcases hcmd with h | h | h
    · exact Or.inl ⟨.stop, Or.inr rfl, h⟩
    · exact Or.inl ⟨.query, Or.inl rfl, h⟩
    · exact Or.inr h
  rcases hcases with ⟨c, hc, h⟩ | h | h
  · obtain ⟨t, u, u', henc, hdec, hdeca, hresp, hresp', hmsg, hmsg'⟩ := enc_then_decode_short hcfg hc h
    have hgoTo : c ≠ .goTo := by rcases hc with rfl | rfl <;> decide
    have hreply : c ≠ .reply := by rcases hc with rfl | rfl <;> decide
    exact ⟨t, u, u', henc, hdec, hdeca, hresp, hresp'.trans hresp.symm, hmsg', fun _ => hmsg,
      fun hg => absurd hg (hne h hgoTo), fun hr => absurd hr (hne h hreply)⟩
  · have hl : s.mLock.toNat < 8 := by omega
    have hr : s.mRepos.toNat < 8 := by omega
    obtain ⟨hlock', hrepos'⟩ := and_seven_of_two_fields hl hr
    obtain ⟨t, henc, -, hdecode⟩ := enc_then_decode_f4 true hcfg h hlock' (encodeMessage_of_goTo hcfg h hl hr)
    obtain ⟨u, hdec, hresp, hmsg⟩ := hdecode (freshMessage t.mCmd)
    obtain ⟨u', hdeca, hresp', hmsg'⟩ := hdecode t.message
    rw [if_pos rfl, hrepos'] at hmsg hmsg'
    refine ⟨t, u, u', henc, hdec, hdeca, hresp, hresp'.trans hresp.symm, hmsg', fun hs => ?_, fun _ => hmsg,
      fun hr => absurd hr (hne (c := .goTo) (d := .reply) h (by decide))⟩
    rcases hs with hs | hs
    · exact absurd hs (hne (c := .goTo) (d := .stop) h (by decide))
    · exact absurd hs (hne (c := .goTo) (d := .query) h (by decide))
  · have hl : s.mLock.toNat < 8 := by omega
    obtain ⟨t, henc, hmsgt, hdecode⟩ :=
      enc_then_decode_f4 false hcfg h (and_seven_of_lt hl) (encodeMessage_of_reply hcfg h hl)
    obtain ⟨u, hdec, hresp, hmsg⟩ := hdecode (freshMessage t.mCmd)
    obtain ⟨u', hdeca, hresp', hmsg'⟩ := hdecode t.message
    rw [hmsgt] at hmsg'
    refine ⟨t, u, u', henc, hdec, hdeca, hresp, hresp'.trans hresp.symm, hmsg', fun hs => ?_,
      fun hg => absurd hg (hne (c := .reply) (d := .goTo) h (by decide)), fun _ => hmsg⟩
    rcases hs with hs | hs
    · exact absurd hs (hne (c := .reply) (d := .stop) h (by decide))
    · exact absurd hs (hne (c := .reply) (d := .query) h (by decide))

/-! A decoder, then ENC. -/

/-- A decoder that succeeds found a telegram of one of the four commands, and wrote its message. -/
theorem decodeOnto_lastOk {m0 : Message} {s t : State} (hfit : s.tLen.toNat ≤ s.cfg.pmax)
    (h : decodeOnto m0 s = .next t) (hok : t.lastOk) :
    1 ≤ s.tLen.toNat ∧ ∃ b0, b0 = s.p.read (s.tLen.toNat - 1) ∧
    (((classify s.cfg ((commandNibble b0).setWidth 8) = some .query ∨
        classify s.cfg ((commandNibble b0).setWidth 8) = some .stop) ∧
      t = (s.setMessage { m0 with cmd := (commandNibble b0).setWidth 8 }).respond
        (diagnosed none (some (channelNibble b0)))) ∨
    (s.tLen.toNat = 4 ∧ ∃ goTo : Bool,
      classify s.cfg ((commandNibble b0).setWidth 8) = some (if goTo then .goTo else .reply) ∧
      t = (s.setMessage (s.messageF4 goTo m0 ((commandNibble b0).setWidth 8))).respond
        (diagnosed none (some (channelNibble b0))))) := by
  by_cases henv : s.tEtype = s.cfg.envVld
  · by_cases hlen : s.tLen.toNat = 0
    · cases (decodeOnto_empty m0 henv hlen).symm.trans h
      exact nomatch hok
    · have hpos : 1 ≤ s.tLen.toNat := by omega
      rw [decodeOnto_eq_commandOnto m0 henv hpos hfit] at h
      refine ⟨hpos, _, rfl, ?_⟩
      rcases command_cases s.cfg s.tLen.toNat (s.p.read (s.tLen.toNat - 1)) with hc | ⟨h4, goTo, hc⟩ | ⟨h4, hc⟩ | hc
      · exact Or.inl ⟨hc, (Host.Outcome.next.inj ((commandOnto_short m0 hc).symm.trans h)).symm⟩
      · exact Or.inr ⟨h4, goTo, hc, (Host.Outcome.next.inj ((commandOnto_f4 m0 goTo hc h4 hfit).symm.trans h)).symm⟩
      · cases (commandOnto_mismatch m0 hc h4).symm.trans h
        exact nomatch hok
      · cases (commandOnto_unknown m0 hc).symm.trans h
        exact nomatch hok
  · cases (decodeOnto_envelope m0 henv).symm.trans h
    exact nomatch hok

/-- ENC in a state `t` makes the telegram of the block `s` again exactly when the encoder gives its length and its
bytes. -/
theorem enc_reproduces_iff {s t : State} {q : List Byte} (hs : s.Inv) (htcfg : t.cfg = s.cfg)
    (henc : encodeMessage t.cfg t.message = .ok q) : ∃ u, exec .enc t = .next u ∧ u.lastOk ∧
      ((u.tLen = s.tLen ∧ ∀ i, u.p.read i = s.p.read i) ↔
        s.tLen.toNat = q.length ∧ ∀ i < q.length, q.getD i 0 = s.p.read i) := by
  obtain ⟨hcfg, -, -, hbound⟩ := id hs
  obtain ⟨m, hexec, hread⟩ := exec_enc_of_ok (htcfg ▸ hcfg) henc
  have hlen : (BitVec.ofNat 8 q.length).toNat = q.length := by
    rw [BitVec.toNat_ofNat]
    rcases encodeMessage_length henc with h | h <;> omega
  refine ⟨_, hexec, rfl, fun ⟨htLen, hbytes⟩ => ?kept, fun ⟨htLen, hbytes⟩ => ?made⟩
  case kept => exact ⟨htLen ▸ hlen, fun i _ => (hread i).symm.trans (hbytes i)⟩
  case made =>
    refine ⟨BitVec.eq_of_toNat_eq (hlen.trans htLen.symm), fun i => ?_⟩
    by_cases hi : i < q.length
    · exact (hread i).trans (hbytes i hi)
    · refine (hread i).trans ?_
      rw [List.getD_eq_default _ _ (by omega), Memory.read_of_bounded _ _ _ (by omega) hbound]

/-- A byte is its command nibble exactly on channel 0. -/
theorem commandNibble_eq_self_iff : ∀ b : Byte, (commandNibble b).setWidth 8 = b ↔ channelNibble b = 0 := by decide

/-- ENC makes DB1 of a GoTo again exactly when its bits 3 and 7 are clear. -/
theorem db1_goTo_eq_self_iff : ∀ x : Byte,
    (x &&& (7 : Byte)) ||| (((x >>> 4) &&& (7 : Byte)) <<< 4) = x ↔
      x.getLsbD 3 = false ∧ x.getLsbD 7 = false := by decide

/-- ENC makes DB1 of a Reply again exactly when all but its bits 2 to 0 are clear. -/
theorem db1_reply_eq_self_iff : ∀ x : Byte,
    x &&& 7 = x ↔ (x.getLsbD 3 = false ∧ x.getLsbD 7 = false) ∧ x.toNat / 16 % 8 = 0 := by decide

theorem toNat_and_seven_lt (x : Byte) : (x &&& 7).toNat < 8 := by rw [toNat_and_seven]; omega

/-- The four bytes of a telegram, its first two kept, are all kept exactly when DB1 is and DB0 has channel 0. -/
theorem four_bytes_eq_iff {s : State} (h4 : s.tLen.toNat = 4) (db1 : Byte) :
    (s.tLen.toNat = 4 ∧ ∀ i < 4,
      [s.p.read 0, s.p.read 1, db1, (commandNibble (s.p.read 3)).setWidth 8].getD i 0 = s.p.read i) ↔
      db1 = s.p.read 2 ∧ channelNibble (s.p.read 3) = 0 := by
  rw [← commandNibble_eq_self_iff]
  refine ⟨fun ⟨_, h⟩ => ⟨h 2 (by decide), h 3 (by decide)⟩, fun ⟨hdb1, hdb0⟩ => ⟨h4, fun i hi => ?_⟩⟩
  interval_cases i
  · rfl
  · rfl
  · exact hdb1
  · exact hdb0

/-- Settles O39: for each command the bytes that ENC makes again are compared with the payload's. -/
theorem decThenEncReproduces : Obligations.DecThenEncReproduces := by
  intro s t hs hdec hok
  obtain ⟨hcfg, hfit, -, -⟩ := id hs
  obtain ⟨hpos, b0, rfl, ⟨hclass, ht⟩ | ⟨h4, goTo, hclass, ht⟩⟩ := decodeOnto_lastOk hfit hdec hok
  · have htcfg : t.cfg = s.cfg := ht ▸ rfl
    have hmCmd : t.mCmd = (commandNibble (s.p.read (s.tLen.toNat - 1))).setWidth 8 := ht ▸ rfl
    have hcmd : t.mCmd = s.cfg.cmdQuery ∨ t.mCmd = s.cfg.cmdStop := hmCmd ▸ hclass.imp classify_some classify_some
    obtain ⟨u, henc, huok, hiff⟩ :=
      enc_reproduces_iff hs htcfg (encodeMessage_of_short (htcfg ▸ hcfg) (htcfg ▸ hcmd))
    have hne : ∀ d, d ≠ .query → d ≠ .stop → t.mCmd ≠ s.cfg.code d := fun d hq hst hd => by
      rcases hcmd with h | h
      · exact code_ne hcfg (c := .query) hq.symm (h.symm.trans hd)
      · exact code_ne hcfg (c := .stop) hst.symm (h.symm.trans hd)
    refine ⟨u, henc, huok, hiff.trans ⟨?kept, ?made⟩⟩
    case kept =>
      rintro ⟨hlen, hbytes⟩
      have hdb0 : t.mCmd = s.p.read 0 := hbytes 0 Nat.one_pos
      have hone : s.tLen.toNat - 1 = 0 := by rw [hlen]; rfl
      rw [hone] at hmCmd ⊢
      refine ⟨(commandNibble_eq_self_iff _).mp (hmCmd.symm.trans hdb0), fun h => ?_,
        fun h => absurd h (hne .reply (by decide) (by decide)), fun _ => BitVec.eq_of_toNat_eq hlen⟩
      rcases h with h | h
      · exact absurd h (hne .goTo (by decide) (by decide))
      · exact absurd h (hne .reply (by decide) (by decide))
    case made =>
      rintro ⟨hchannel, -, -, hone⟩
      have hlen : s.tLen.toNat = 1 := congrArg BitVec.toNat (hone hcmd.symm)
      have hzero : s.tLen.toNat - 1 = 0 := by omega
      rw [hzero] at hmCmd hchannel
      refine ⟨hlen, fun i hi => ?_⟩
      obtain rfl : i = 0 := Nat.lt_one_iff.mp hi
      exact hmCmd.trans ((commandNibble_eq_self_iff _).mpr hchannel)
  · have hdb0 : s.tLen.toNat - 1 = 3 := by omega
    rw [hdb0] at hclass ht ⊢
    have htcfg : t.cfg = s.cfg := ht ▸ rfl
    have hmCmd : t.mCmd = (commandNibble (s.p.read 3)).setWidth 8 := ht ▸ rfl
    have hmPos : t.mPos = s.p.read 0 := ht ▸ rfl
    have hmAng : t.mAng = s.p.read 1 := ht ▸ rfl
    have hmLock : t.mLock = s.p.read 2 &&& 7 := ht ▸ rfl
    have hcmd : t.mCmd = s.cfg.code (if goTo then .goTo else .reply) := hmCmd ▸ classify_some hclass
    have hne : ∀ d, (if goTo then Command.goTo else .reply) ≠ d → t.mCmd ≠ s.cfg.code d :=
      fun d hd => hcmd ▸ code_ne hcfg hd
    have hlock : t.mLock.toNat < 8 := hmLock ▸ toNat_and_seven_lt _
    cases goTo with
    | true =>
      have hmRepos : t.mRepos = (s.p.read 2 >>> 4) &&& 7 := ht ▸ rfl
      obtain ⟨u, henc, huok, hiff⟩ := enc_reproduces_iff hs htcfg
        (encodeMessage_of_goTo (htcfg ▸ hcfg) (htcfg ▸ hcmd) hlock (hmRepos ▸ toNat_and_seven_lt _))
      rw [hmPos, hmAng, hmLock, hmRepos, hmCmd] at hiff
      refine ⟨u, henc, huok, (hiff.trans (four_bytes_eq_iff h4 _)).trans ?_⟩
      rw [db1_goTo_eq_self_iff]
      refine ⟨fun ⟨hbits, hchannel⟩ => ⟨hchannel, fun _ => hbits, fun h => absurd h (hne .reply (by decide)),
        fun h => ?_⟩, fun ⟨hchannel, hbits, _, _⟩ => ⟨hbits (Or.inl hcmd), hchannel⟩⟩
      rcases h with h | h
      · exact absurd h (hne .stop (by decide))
      · exact absurd h (hne .query (by decide))
    | false =>
      obtain ⟨u, henc, huok, hiff⟩ := enc_reproduces_iff hs htcfg
        (encodeMessage_of_reply (htcfg ▸ hcfg) (htcfg ▸ hcmd) hlock)
      rw [hmPos, hmAng, hmLock, hmCmd] at hiff
      refine ⟨u, henc, huok, (hiff.trans (four_bytes_eq_iff h4 _)).trans ?_⟩
      rw [db1_reply_eq_self_iff]
      refine ⟨fun ⟨⟨hbits, hmid⟩, hchannel⟩ => ⟨hchannel, fun _ => hbits, fun _ => hmid, fun h => ?_⟩,
        fun ⟨hchannel, hbits, hmid, _⟩ => ⟨⟨hbits (Or.inr hcmd), hmid hcmd⟩, hchannel⟩⟩
      rcases h with h | h
      · exact absurd h (hne .stop (by decide))
      · exact absurd h (hne .query (by decide))

end Sys2Proof.Machine
end
